-- ==== Sys2Proof/Word.lean ====
section
/-! DEFINITION. The word types of the core (spec/00_scope.md R7, R8): every datum is one byte, a register index is
one of eight, the flags register has three bits. -/

namespace Sys2Proof

/-- An 8-bit unsigned value: registers, pc, addresses, memory cells and operand bytes alike (R7, R20, R54). -/
abbrev Byte := BitVec 8

/-- A register index that names a register: 0..7 (R20). -/
abbrev RegIdx := Fin 8

/-- The 3-bit flags register: bit 0 Equal, bit 1 Greater, bit 2 Less (R28). -/
abbrev Flags := BitVec 3

/-- `u8(v) = v mod 256`, the reduction of a natural number to 8 bits (R8). -/
def u8 (n : Nat) : Byte := BitVec.ofNat 8 n

/-- The operand byte that names register `r` (R23: the whole byte is the index). -/
def regByte (r : RegIdx) : Byte := u8 r.val

end Sys2Proof
end

