-- ==== Sys2Proof/Syntax.lean ====
section
/-! DEFINITION. The instructions as syntax: one constructor of `Instr` per row of spec/opcode_table.json (R2, R73),
carrying its operand bytes, and the opcodes and formats the dispatcher table names (R71, R73). -/

namespace Sys2Proof

/-- The 17 rows of the dispatcher table (R73), by name. -/
inductive Opcode where
  | hlt | ldi | prn | add | mul | push | pop | call | ret | and | not | or | xor | cmp | jmp | jne | jeq
  deriving DecidableEq, Repr

/-- The four instruction formats (R71). -/
inductive Format where
  /-- no operand, 1 byte -/
  | n
  /-- one register, 2 bytes -/
  | r
  /-- two registers, 3 bytes -/
  | rr
  /-- a register and an 8-bit immediate, 3 bytes -/
  | ri
  deriving DecidableEq, Repr

/-- An instruction with its operand bytes as they stand in memory: `a` is op_a, `b` op_b, `imm` LDI's immediate.
A register operand is the WHOLE byte (R23, R72): a value above 7 is an instruction too, one that raises
InvalidRegister (R76), so the syntax does not shut it out; `Instr.wellFormed` tells the two apart. -/
inductive Instr where
  /-- stop execution (R130) -/
  | hlt
  /-- load an immediate into a register (R131) -/
  | ldi (a imm : Byte)
  /-- output a register's value (R132) -/
  | prn (a : Byte)
  /-- add two registers (R102) -/
  | add (a b : Byte)
  /-- multiply two registers (R103) -/
  | mul (a b : Byte)
  /-- push a register (R151) -/
  | push (a : Byte)
  /-- pop into a register (R152) -/
  | pop (a : Byte)
  /-- call the subroutine at a register's address (R153) -/
  | call (a : Byte)
  /-- return from a subroutine (R154) -/
  | ret
  /-- bitwise AND (R104) -/
  | and (a b : Byte)
  /-- bitwise complement (R105) -/
  | not (a : Byte)
  /-- bitwise OR (R106) -/
  | or (a b : Byte)
  /-- bitwise exclusive OR (R107) -/
  | xor (a b : Byte)
  /-- compare and set the flags (R170) -/
  | cmp (a b : Byte)
  /-- jump to a register's address (R172) -/
  | jmp (a : Byte)
  /-- branch if Equal is clear (R174) -/
  | jne (a : Byte)
  /-- branch if Equal is set (R173) -/
  | jeq (a : Byte)
  deriving DecidableEq, Repr

/-- The row of the dispatcher table an instruction belongs to. -/
def Instr.opcode : Instr → Opcode
  | .hlt => .hlt
  | .ldi _ _ => .ldi
  | .prn _ => .prn
  | .add _ _ => .add
  | .mul _ _ => .mul
  | .push _ => .push
  | .pop _ => .pop
  | .call _ => .call
  | .ret => .ret
  | .and _ _ => .and
  | .not _ => .not
  | .or _ _ => .or
  | .xor _ _ => .xor
  | .cmp _ _ => .cmp
  | .jmp _ => .jmp
  | .jne _ => .jne
  | .jeq _ => .jeq

end Sys2Proof
end

