-- ==== Sys2Proof/WellFormed.lean ====
section
/-! DEFINITION. Which instructions the spec gives operands it accepts: every register operand byte is 0..7 (R23, R72);
LDI's immediate is never checked (R72, R131). An instruction that is not well formed raises InvalidRegister (R204). -/

namespace Sys2Proof

/-- The register operand bytes of an instruction, in byte order: op_a, then op_b (R71, R206). -/
def Instr.regOperands : Instr → List Byte
  | .hlt | .ret => []
  | .ldi a _ => [a]
  | .prn a | .push a | .pop a | .call a | .not a | .jmp a | .jne a | .jeq a => [a]
  | .add a b | .mul a b | .and a b | .or a b | .xor a b | .cmp a b => [a, b]

/-- The first register operand byte that names no register, if there is one (R206: op_a before op_b). -/
def Instr.firstBadRegister (i : Instr) : Option Byte :=
  i.regOperands.find? fun r => decide (7 < r.toNat)

/-- Every register operand byte names a register (R23, R72). -/
def Instr.wellFormed (i : Instr) : Bool :=
  i.regOperands.all fun r => decide (r.toNat ≤ 7)

end Sys2Proof
end

