-- ==== Sys2Proof/Decode.lean ====
section
/-! DEFINITION. The dispatcher table (spec/30_encoding.md R70-R75), the decoder and the encoder read from it, the
opcode-table numbering of an instruction's bits, and the assembly spelling of R83. -/

namespace Sys2Proof

/-- The opcode byte of each row (R73), written in binary as the table writes it. -/
def opcodeByte : Opcode → Byte
  | .hlt  => 0b00000001
  | .ldi  => 0b10000010
  | .prn  => 0b01000111
  | .add  => 0b10100000
  | .mul  => 0b10100010
  | .push => 0b01000101
  | .pop  => 0b01000110
  | .call => 0b01010000
  | .ret  => 0b00010001
  | .and  => 0b10101000
  | .not  => 0b01101001
  | .or   => 0b10101010
  | .xor  => 0b10101011
  | .cmp  => 0b10100111
  | .jmp  => 0b01010100
  | .jne  => 0b01010110
  | .jeq  => 0b01010101

/-- The format of each row (R71, R73). -/
def opcodeFormat : Opcode → Format
  | .hlt | .ret => .n
  | .prn | .push | .pop | .call | .not | .jmp | .jne | .jeq => .r
  | .add | .mul | .and | .or | .xor | .cmp => .rr
  | .ldi => .ri

/-- The total number of bytes of a format (R71). -/
def formatLength : Format → Nat
  | .n => 1
  | .r => 2
  | .rr => 3
  | .ri => 3

/-- The rows of the dispatcher table in the order of R73. -/
def allOpcodes : List Opcode :=
  [.hlt, .ldi, .prn, .add, .mul, .push, .pop, .call, .ret, .and, .not, .or, .xor, .cmp, .jmp, .jne, .jeq]

/-- The dispatcher's lookup, on the whole opcode byte (R73: mask 0xFF); `none` is an illegal byte (R75). -/
def opcodeOfByte (b : Byte) : Option Opcode :=
  allOpcodes.find? fun o => opcodeByte o == b

/-- The instruction a row makes of the bytes at pc0+1 and pc0+2 (R71, R72); a byte past the row's length is not
looked at. -/
def assemble : Opcode → Byte → Byte → Instr
  | .hlt,  _, _ => .hlt
  | .ldi,  a, b => .ldi a b
  | .prn,  a, _ => .prn a
  | .add,  a, b => .add a b
  | .mul,  a, b => .mul a b
  | .push, a, _ => .push a
  | .pop,  a, _ => .pop a
  | .call, a, _ => .call a
  | .ret,  _, _ => .ret
  | .and,  a, b => .and a b
  | .not,  a, _ => .not a
  | .or,   a, b => .or a b
  | .xor,  a, b => .xor a b
  | .cmp,  a, b => .cmp a b
  | .jmp,  a, _ => .jmp a
  | .jne,  a, _ => .jne a
  | .jeq,  a, _ => .jeq a

/-- What the decoder answers: an instruction, or the rejection of an opcode byte by name (R75). A register operand
above 7 is no rejection here: it is an instruction that raises InvalidRegister (R76, R204). -/
inductive Decoded where
  | instr (i : Instr)
  | illegalInstruction (op : Byte)
  deriving DecidableEq, Repr

/-- The decoder, total on any three bytes at pc0, pc0+1, pc0+2 (R70, R73, R75). -/
def decode (op a b : Byte) : Decoded :=
  match opcodeOfByte op with
  | some o => .instr (assemble o a b)
  | none => .illegalInstruction op

/-- The length in bytes of an instruction (R70: fixed per opcode). -/
def instrLength (i : Instr) : Nat := formatLength (opcodeFormat i.opcode)

/-- The operand bytes of an instruction, in byte order (R71). -/
def operandBytes : Instr → List Byte
  | .hlt | .ret => []
  | .ldi a imm => [a, imm]
  | .prn a | .push a | .pop a | .call a | .not a | .jmp a | .jne a | .jeq a => [a]
  | .add a b | .mul a b | .and a b | .or a b | .xor a b | .cmp a b => [a, b]

/-- The bytes of an instruction, the opcode byte first (R70, R71). -/
def encode (i : Instr) : List Byte := opcodeByte i.opcode :: operandBytes i

/-- The three bytes of an instruction word as spec/opcode_table.json numbers its bits (the first byte in bits 7..0,
the second in bits 15..8, the third in bits 23..16); bits from `nbits` up are zero. -/
def tableWordBytes (nbits w : Nat) : Byte × Byte × Byte :=
  let v := w % 2 ^ nbits
  (u8 v, u8 (v / 256), u8 (v / 65536))

/-- The instruction the decoder reads from an opcode-table word, `none` where it rejects the opcode byte. -/
def decodeTableWord (nbits w : Nat) : Option Instr :=
  match decode (tableWordBytes nbits w).1 (tableWordBytes nbits w).2.1 (tableWordBytes nbits w).2.2 with
  | .instr i => some i
  | .illegalInstruction _ => none

/-- The mnemonic of each row (R73). -/
def opcodeMnemonic : Opcode → String
  | .hlt => "HLT"
  | .ldi => "LDI"
  | .prn => "PRN"
  | .add => "ADD"
  | .mul => "MUL"
  | .push => "PUSH"
  | .pop => "POP"
  | .call => "CALL"
  | .ret => "RET"
  | .and => "AND"
  | .not => "NOT"
  | .or => "OR"
  | .xor => "XOR"
  | .cmp => "CMP"
  | .jmp => "JMP"
  | .jne => "JNE"
  | .jeq => "JEQ"

/-- A register as R83 writes it. -/
def regText (a : Byte) : String := "R" ++ toString a.toNat

/-- The operands as R83 writes them: op_a then op_b, a comma between, the immediate in decimal. -/
def operandText : Instr → String
  | .hlt | .ret => ""
  | .ldi a imm => " " ++ regText a ++ "," ++ toString imm.toNat
  | .prn a | .push a | .pop a | .call a | .not a | .jmp a | .jne a | .jeq a => " " ++ regText a
  | .add a b | .mul a b | .and a b | .or a b | .xor a b | .cmp a b => " " ++ regText a ++ "," ++ regText b

/-- The assembly spelling of an instruction (R83); one with a register operand above 7 has none. -/
def asmText (i : Instr) : Option String :=
  if i.wellFormed then some (opcodeMnemonic i.opcode ++ operandText i) else none

end Sys2Proof
end

