-- ==== Sys2Proof/Config.lean ====
section
/-! DEFINITION. What is fixed for this core (spec/00_scope.md R7, spec/10_state.md R33, spec/20_memory.md R61). The spec
leaves no parameter open (R7: "there is no open parameter"), so every entry has a value and there is no free value. -/

namespace Sys2Proof.Config

/-- The number of memory cells, addresses 0..255 (R7, R50). -/
def memorySize : Nat := 256

/-- What a cell that nothing has written holds: the spec's decision D7 (R61). -/
def unwrittenCell : Byte := 0x00

/-- R0..R6 at reset: the spec's decision D5 (R33). -/
def resetReg : Byte := 0x00

/-- SP = R7 at reset (R22, R33). -/
def resetSp : Byte := 0xF4

/-- pc at reset: the spec's decision D4 (R33, R231). -/
def resetPc : Byte := 0x00

/-- FL at reset: the spec's decision D6 (R33). -/
def resetFl : Flags := 0b000

/-- The index of the register that is the stack pointer (R22). -/
def spIdx : RegIdx := 7

end Sys2Proof.Config
end

