-- ==== Sys2Proof/Machine/State.lean ====
section
/-! DEFINITION. The state of the machine: every piece the spec gives it (spec/10_state.md R20-R35, spec/20_memory.md
R50, spec/41_load_output_halt.md R134), as plain data, and its value right after reset (R33, R230). -/

namespace Sys2Proof.Machine

/-- Memory as a list of (address, byte) pairs; an address not listed holds `Config.unwrittenCell`. Its canonical form
is `Memory.wf` (Ops.lean). -/
abbrev Memory := List Host.Cell

/-- The run state of the execution engine (R30). -/
inductive RunState where
  | running
  | halted
  deriving DecidableEq, Repr

/-- The causes a halt record can name (R31, R202). -/
inductive HaltCause where
  /-- code 0: the core is Running -/
  | none
  /-- code 1: HLT executed (R130) -/
  | hlt
  /-- code 2: an opcode byte outside the dispatcher table (R203) -/
  | illegalInstruction
  /-- code 3: a register operand byte above 7 (R204) -/
  | invalidRegister
  deriving DecidableEq, Repr

/-- The halt record (R31): what the core reports when it halts. -/
structure HaltRecord where
  /-- halt_cause -/
  cause : HaltCause
  /-- halt_pc: pc0 of the instruction that halted the core -/
  pc : Byte
  /-- halt_opcode: the opcode byte fetched at halt_pc -/
  opcode : Byte
  /-- halt_operand: the offending operand byte of an InvalidRegister, 0 otherwise -/
  operand : Byte
  deriving DecidableEq, Repr

/-- The halt record of a core that is Running (R31, R33). -/
def HaltRecord.clear : HaltRecord := { cause := .none, pc := 0x00, opcode := 0x00, operand := 0x00 }

/-- The state of the machine. -/
structure State where
  /-- the register file x[0]..x[7]; x[7] is SP (R20, R22) -/
  regs : Vector Byte 8
  /-- the program counter (R25) -/
  pc : Byte
  /-- the flags register FL (R28) -/
  fl : Flags
  /-- the run state (R30) -/
  runState : RunState
  /-- the halt record (R31) -/
  halt : HaltRecord
  /-- the 256 memory cells (R50) -/
  mem : Memory
  /-- the output events emitted so far, oldest first (R134) -/
  out : List Byte
  deriving DecidableEq, Repr

/-- There is no fault outcome: the spec describes the state after every exceptional condition of the core (R200, R203,
R204, R207: the halt record is written and the run state becomes Halted), so each is a NEXT state; and no memory access
or value faults (R51, R202). The type is empty, which is safe: no step can stop for a reason the spec does not name. -/
inductive Fault where
  deriving DecidableEq, Repr

/-- Why a step can be refused. -/
inductive Refusal where
  /-- Raised by an arm of `exec` for an instruction that has no meaning yet; safe, since the run stops there. No arm
  raises it: every instruction of the table has its meaning. -/
  | notModelled (mnemonic : String)
  deriving DecidableEq, Repr

/-- What an instruction or a step answers. -/
abbrev Result := Host.Outcome State Fault Refusal

/-- The machine right after reset (R33, R230, R231), with no launch image placed: every cell unwritten (log entry 2). -/
def State.reset : State :=
  { regs := #v[Config.resetReg, Config.resetReg, Config.resetReg, Config.resetReg,
               Config.resetReg, Config.resetReg, Config.resetReg, Config.resetSp]
    pc := Config.resetPc
    fl := Config.resetFl
    runState := .running
    halt := HaltRecord.clear
    mem := []
    out := [] }

end Sys2Proof.Machine
end

