-- ==== Sys2Proof/Machine/Ops.lean ====
section
/-! DEFINITION. The named operations over memory, registers, stack, output and the halt record, which the meanings are
made of, and what the host may do to the machine (spec/00_scope.md R9-R12, spec/20_memory.md, spec/42_stack.md R150,
spec/60_exceptions.md R200-R208, spec/70_reset_and_hazards.md R230). -/

namespace Sys2Proof.Machine

/-! ## Memory as a list of cells -/

/-- The canonical form of memory: addresses strictly rising and inside the 256 cells (R50), and no entry equal to what
an unlisted address holds, so that memories that read alike are the same list. -/
abbrev Memory.wf (m : Memory) : Prop :=
  m.Pairwise (fun c d => c.1 < d.1) ∧ ∀ c ∈ m, c.1 < Config.memorySize ∧ c.2 ≠ Config.unwrittenCell

/-- The byte a cell holds (R56: a read has no side effect). -/
def Memory.read : Memory → Nat → Byte
  | [], _ => Config.unwrittenCell
  | (k, w) :: m, a => if k = a then w else Memory.read m a

/-- The memory with cell `a` unlisted. -/
def Memory.removeCell (m : Memory) (a : Nat) : Memory := m.filter fun c => c.1 != a

/-- Lists cell `a`, which is not listed, in front of the first higher one. -/
def Memory.insertCell : Memory → Nat → Byte → Memory
  | [], a, v => [(a, v)]
  | (k, w) :: m, a, v => if a < k then (a, v) :: (k, w) :: m else (k, w) :: Memory.insertCell m a v

/-- Writes one cell and no other (R56), keeping the canonical form: writing what an unlisted address holds unlists it. -/
def Memory.write (m : Memory) (a : Nat) (v : Byte) : Memory :=
  if v = Config.unwrittenCell then m.removeCell a else (m.removeCell a).insertCell a v

/-- Writes a sequence of bytes at rising addresses from `a` (R61: byte i of the image at address i). -/
def Memory.load : Memory → Nat → List Byte → Memory
  | m, _, [] => m
  | m, a, b :: bs => Memory.load (m.write a b) (a + 1) bs

/-! ## Registers, pc, flags, memory port, output -/

/-- Reads x[r] (R20, R21: no register is hardwired). -/
def State.reg (s : State) (r : RegIdx) : Byte := s.regs[r]

/-- `x[r] <- v` (R20, R21). -/
def State.setReg (s : State) (r : RegIdx) (v : Byte) : State := { s with regs := s.regs.set r v }

/-- SP is another name for x[7] (R9, R22). -/
def State.sp (s : State) : Byte := s.reg Config.spIdx

/-- `SP <- v` writes x[7] (R9, R22). -/
def State.setSp (s : State) (v : Byte) : State := s.setReg Config.spIdx v

/-- `pc <- t` (R9). -/
def State.setPc (s : State) (t : Byte) : State := { s with pc := t }

/-- `FL <- f` (R28). -/
def State.setFl (s : State) (f : Flags) : State := { s with fl := f }

/-- `MemRead(a, 1)` (R9, R50). -/
def State.read (s : State) (a : Byte) : Byte := s.mem.read a.toNat

/-- `MemWrite(a, 1, v)` (R9, R50). -/
def State.write (s : State) (a v : Byte) : State := { s with mem := s.mem.write a.toNat v }

/-- `Out(v)`: one event on the output port, after every earlier one (R11, R134). -/
def State.emit (s : State) (v : Byte) : State := { s with out := s.out ++ [v] }

/-- The address `n` bytes after `a`, modulo 256 (R27, R51). -/
def offset (a : Byte) (n : Nat) : Byte := u8 (a.toNat + n)

/-- The address of the instruction that follows the one at pc, which has `n` bytes: `u8(pc0 + n)` (R26, R27). -/
def State.pcAfter (s : State) (n : Nat) : Byte := offset s.pc n

/-! ## The stack -/

/-- The address a push or call stores to: SP decremented, `u8(SP + 255)` (R150, R151, R155). -/
def State.pushAddr (s : State) : Byte := offset s.sp 255

/-- SP after a pop or return: `u8(SP + 1)` (R150, R152, R155). -/
def State.spAfterPop (s : State) : Byte := offset s.sp 1

/-- `SP <- u8(SP + 255)`, the first effect of a push or call (R150). -/
def State.decSp (s : State) : State := s.setSp s.pushAddr

/-- `SP <- u8(SP + 1)`, the effect on SP of a pop or return (R150). -/
def State.incSp (s : State) : State := s.setSp s.spAfterPop

/-! ## Halting: the core's one exceptional mechanism -/

/-- `halt(cause)` (R30, R31, R200): the run state becomes Halted and the halt record is written; nothing else changes
(R207). There is no return from it but the host's reset (R208). -/
def State.haltWith (s : State) (r : HaltRecord) : State := { s with runState := .halted, halt := r }

/-- `raise IllegalInstruction(pc0, op)` (R203); pc is still pc0. -/
def State.raiseIllegalInstruction (s : State) (op : Byte) : State :=
  s.haltWith { cause := .illegalInstruction, pc := s.pc, opcode := op, operand := 0x00 }

/-- `raise InvalidRegister(pc0, op, r)` (R204); pc is still pc0. -/
def State.raiseInvalidRegister (s : State) (op r : Byte) : State :=
  s.haltWith { cause := .invalidRegister, pc := s.pc, opcode := op, operand := r }

/-- The code the status interface shows for a cause (R31, R202). -/
def haltCauseCode : HaltCause → BitVec 2
  | .none => 0
  | .hlt => 1
  | .illegalInstruction => 2
  | .invalidRegister => 3

/-! ## Fetch and decode -/

/-- The fetch and decode of the instruction at pc (R25, R77-R79): the opcode byte at pc0 and the operand bytes at
u8(pc0+1) and u8(pc0+2), all read before any write. The decoder looks at no byte past the instruction's length, and a
read has no side effect (R56), so reading all three here cannot be told from reading only those of the length. -/
def State.fetchDecoded (s : State) : Decoded :=
  decode (s.read s.pc) (s.read (s.pcAfter 1)) (s.read (s.pcAfter 2))

/-- A step requested in Halted changes nothing (R82). -/
def State.stepHalted (s : State) : State := s

/-! ## What the host may do (R11, R12) -/

/-- Reset (R230): every piece of core state takes its reset value and the output starts empty; memory is not written. -/
def State.hostReset (s : State) : State := { State.reset with mem := s.mem }

/-- The memory the loader hands over: exactly the image from address 0, every other cell unwritten (R61). -/
def State.withImage (s : State) (image : List Byte) : State := { s with mem := Memory.load [] 0 image }

/-- The machine released from reset with a launch image placed (R12, R61, R232). An image of more than 256 bytes is no
launch image. -/
def launch (image : List Byte) : Option State :=
  if image.length ≤ Config.memorySize then some (State.reset.withImage image).hostReset else none

/-- Writes bytes into the cells from `a` on, wrapping past 0xFF as the fetch does (R27). -/
def State.placeBytes : State → Byte → List Byte → State
  | s, _, [] => s
  | s, a, b :: bs => State.placeBytes (s.write a b) (offset a 1) bs

/-- The state in which the next step runs: Running, with the halt record a Running core has (R30, R31). -/
def State.released (s : State) : State := { s with runState := .running, halt := HaltRecord.clear }

end Sys2Proof.Machine
end

