-- ==== Sys2Proof/Machine/Operands.lean ====
section
/-! DEFINITION. The operand forms (spec/30_encoding.md R71, R72, R78, R80): a register operand byte names a register
when it is 0..7 and raises InvalidRegister when it is 8..255, before the instruction has any effect and whatever the
instruction would then do; an immediate is the whole byte and needs no form of its own. -/

namespace Sys2Proof.Machine

/-- The register an operand byte names (R23, R72: no masking, no wrap). -/
def operandReg (b : Byte) : Option RegIdx :=
  if h : b.toNat < 8 then some ⟨b.toNat, h⟩ else none

/-- The one-register form of row `o` with operand byte `a`: the effect `k` of the register named, or InvalidRegister
(R78, R204). -/
def withReg (o : Opcode) (a : Byte) (s : State) (k : RegIdx → State) : Result :=
  match operandReg a with
  | some ra => .next (k ra)
  | none => .next (s.raiseInvalidRegister (opcodeByte o) a)

/-- The two-register form: op_a is checked before op_b (R78, R206). -/
def withRegs (o : Opcode) (a b : Byte) (s : State) (k : RegIdx → RegIdx → State) : Result :=
  match operandReg a, operandReg b with
  | some ra, some rb => .next (k ra rb)
  | some _, none => .next (s.raiseInvalidRegister (opcodeByte o) b)
  | none, _ => .next (s.raiseInvalidRegister (opcodeByte o) a)

end Sys2Proof.Machine
end

