-- ==== Sys2Proof/Machine/Alu.lean ====
section
/-! DEFINITION. The ALU and its instructions ADD, MUL, AND, NOT, OR, XOR (spec/40_alu.md R100-R117): exact on naturals,
then reduced to 8 bits; no flag is written. -/

namespace Sys2Proof.Machine

/-! ## The ALU: pure functions of register values (R100) -/

/-- ADD: `u8(p + q)` (R102). -/
def aluAdd (p q : Byte) : Byte := u8 (p.toNat + q.toNat)

/-- MUL: `u8(p * q)`, the low 8 bits of the product (R103). -/
def aluMul (p q : Byte) : Byte := u8 (p.toNat * q.toNat)

/-- AND, over the 8 bits (R104). -/
def aluAnd (p q : Byte) : Byte := p &&& q

/-- OR, over the 8 bits (R106). -/
def aluOr (p q : Byte) : Byte := p ||| q

/-- XOR, over the 8 bits (R107). -/
def aluXor (p q : Byte) : Byte := p ^^^ q

/-- NOT: `0xFF ^ p` (R105; the 8-bit width is the spec's decision D14). -/
def aluNot (p : Byte) : Byte := 0xFF ^^^ p

/-- SUB of the ALU contract, `u8(p - q + 256)`: no opcode selects it (R6, R115; the spec's decision D16). -/
def aluSub (p q : Byte) : Byte := u8 (p.toNat + 256 - q.toNat)

/-- DIV of the ALU contract, the truncated unsigned quotient, `none` where the ALU reports DivisionByZero: no opcode
selects it (R6, R116, R205; the spec's decision D16). -/
def aluDiv (p q : Byte) : Option Byte := if q = 0 then none else some (u8 (p.toNat / q.toNat))

/-! ## The instructions (R101: sources read before the destination is written, pc advanced by the length) -/

/-- A two-register ALU instruction: `x[a] <- f x[a] x[b]` (R101). -/
def aluPair (o : Opcode) (f : Byte → Byte → Byte) (a b : Byte) (s : State) : Result :=
  withRegs o a b s fun ra rb => (s.setReg ra (f (s.reg ra) (s.reg rb))).setPc (s.pcAfter 3)

/-- A one-register ALU instruction: `x[a] <- f x[a]` (R101). -/
def aluOne (o : Opcode) (f : Byte → Byte) (a : Byte) (s : State) : Result :=
  withReg o a s fun ra => (s.setReg ra (f (s.reg ra))).setPc (s.pcAfter 2)

/-- ADD (R102). -/
def execAdd (a b : Byte) (s : State) : Result := aluPair .add aluAdd a b s

/-- MUL (R103). -/
def execMul (a b : Byte) (s : State) : Result := aluPair .mul aluMul a b s

/-- AND (R104). -/
def execAnd (a b : Byte) (s : State) : Result := aluPair .and aluAnd a b s

/-- NOT (R105). -/
def execNot (a : Byte) (s : State) : Result := aluOne .not aluNot a s

/-- OR (R106). -/
def execOr (a b : Byte) (s : State) : Result := aluPair .or aluOr a b s

/-- XOR (R107). -/
def execXor (a b : Byte) (s : State) : Result := aluPair .xor aluXor a b s

end Sys2Proof.Machine
end

