-- ==== Sys2Proof/Machine/Flags.lean ====
section
/-! DEFINITION. The flags register (spec/10_state.md R28, R29) and the compare unit that writes it
(spec/43_compare_branch.md R170, R171). -/

namespace Sys2Proof.Machine

/-- FL.E, bit 0 (R9, R28). -/
def flagE (f : Flags) : Bool := f.getLsbD 0

/-- FL.G, bit 1 (R9, R28). -/
def flagG (f : Flags) : Bool := f.getLsbD 1

/-- FL.L, bit 2 (R9, R28). -/
def flagL (f : Flags) : Bool := f.getLsbD 2

/-- FL read as a byte by the status interface: bits 7..3 are 0 (R29). -/
def flagsByte (f : Flags) : Byte := f.setWidth 8

/-- The outcome of comparing two unsigned bytes: Greater, else Less, else Equal, in that priority (R170, R171; the
unsigned order is the spec's decision D15). -/
def compareFlags (p q : Byte) : Flags :=
  if q.toNat < p.toNat then 0b010
  else if p.toNat < q.toNat then 0b100
  else 0b001

end Sys2Proof.Machine
end

