-- ==== Sys2Proof/Machine/CompareBranch.lean ====
section
/-! DEFINITION. Compare, jump and branch (spec/43_compare_branch.md R170-R177). -/

namespace Sys2Proof.Machine

/-- CMP (R170): FL takes the outcome of comparing x[a] with x[b]. -/
def execCmp (a b : Byte) (s : State) : Result :=
  withRegs .cmp a b s fun ra rb => (s.setFl (compareFlags (s.reg ra) (s.reg rb))).setPc (s.pcAfter 3)

/-- A jump to x[a] under a condition, the next instruction otherwise (R172-R174, R176). The operand is checked either
way (R80; the spec's decision D9). -/
def branchIf (o : Opcode) (taken : Bool) (a : Byte) (s : State) : Result :=
  withReg o a s fun ra => s.setPc (if taken then s.reg ra else s.pcAfter 2)

/-- JMP (R172): unconditional. -/
def execJmp (a : Byte) (s : State) : Result := branchIf .jmp true a s

/-- JEQ (R173): taken when FL.E = 1. -/
def execJeq (a : Byte) (s : State) : Result := branchIf .jeq (flagE s.fl) a s

/-- JNE (R174): taken when FL.E = 0. -/
def execJne (a : Byte) (s : State) : Result := branchIf .jne (!flagE s.fl) a s

end Sys2Proof.Machine
end

