-- ==== Sys2Proof/Machine/LoadOutputHalt.lean ====
section
/-! DEFINITION. Halt, load-immediate and output (spec/41_load_output_halt.md R130-R134). -/

namespace Sys2Proof.Machine

/-- HLT (R130): pc advances by the length, then `halt(HLT)` with halt_pc = pc0 (pc after HLT is the spec's decision
D25). -/
def execHlt (s : State) : Result :=
  .next ((s.setPc (s.pcAfter 1)).haltWith
    { cause := .hlt, pc := s.pc, opcode := opcodeByte .hlt, operand := 0x00 })

/-- LDI (R131): `x[a] <- b`; the immediate is never checked. -/
def execLdi (a imm : Byte) (s : State) : Result :=
  withReg .ldi a s fun ra => (s.setReg ra imm).setPc (s.pcAfter 3)

/-- PRN (R132): one output event carrying x[a]. -/
def execPrn (a : Byte) (s : State) : Result :=
  withReg .prn a s fun ra => (s.emit (s.reg ra)).setPc (s.pcAfter 2)

end Sys2Proof.Machine
end

