-- ==== Sys2Proof/Machine/Stack.lean ====
section
/-! DEFINITION. The stack instructions (spec/42_stack.md R150-R157). Each effect reads the state the effect before it
left (R10), also when the operand is R7 (R150; the spec's decision D24). -/

namespace Sys2Proof.Machine

/-- PUSH (R151): decrement SP, then store x[a], read after the decrement, at the new SP. -/
def execPush (a : Byte) (s : State) : Result :=
  withReg .push a s fun ra =>
    let s1 := s.decSp
    (s1.write s1.sp (s1.reg ra)).setPc (s.pcAfter 2)

/-- POP (R152): load M[SP] into x[a], then increment SP as that load left it. -/
def execPop (a : Byte) (s : State) : Result :=
  withReg .pop a s fun ra => ((s.setReg ra (s.read s.sp)).incSp).setPc (s.pcAfter 2)

/-- CALL (R153): decrement SP, store the return address at the new SP, then jump to x[a], read after both. -/
def execCall (a : Byte) (s : State) : Result :=
  withReg .call a s fun ra =>
    let s1 := s.decSp
    let s2 := s1.write s1.sp (s.pcAfter 2)
    s2.setPc (s2.reg ra)

/-- RET (R154): load the return address from M[SP], increment SP, jump there. -/
def execRet (s : State) : Result := .next (s.incSp.setPc (s.read s.sp))

end Sys2Proof.Machine
end

