-- ==== Sys2Proof/Machine/Step.lean ====
section
/-! DEFINITION. One step (spec/30_encoding.md R77, R78, R82): fetch, decode, execute one whole instruction while
Running; nothing while Halted. And the state in which the next step runs a given opcode-table word. -/

namespace Sys2Proof.Machine

/-- One step of the core (R78). -/
def step (s : State) : Host.Outcome State Fault Refusal :=
  match s.runState with
  | .halted => .next s.stepHalted
  | .running =>
    match s.fetchDecoded with
    | .instr i => exec i s
    | .illegalInstruction op => .next (s.raiseIllegalInstruction op)

/-- `s` with an opcode-table word's bytes stored at pc, pc+1, pc+2 and the core Running, so that the next step fetches
and runs that instruction (log entry 3). -/
def State.withFetchWord (s : State) (nbits w : Nat) : State :=
  let bytes := tableWordBytes nbits w
  (s.placeBytes s.pc [bytes.1, bytes.2.1, bytes.2.2]).released

end Sys2Proof.Machine
end

