-- ==== Sys2Proof/Safety.lean ====
section
/-! DEFINITION. The words the claims are stated in: what a fault leaves, what an instruction may change, which bytes are
illegal, which runs ended normally, and the invariant every step keeps. Each is written out from the spec's rules and
not in terms of the meanings it is used to judge. -/

namespace Sys2Proof.Machine

/-! ## Frames -/

/-- Nothing but the registers `rs`, the cells `cells`, pc, FL and the output may differ between `s` and `t`. -/
def Frame (rs : List RegIdx) (cells : List Byte) (s t : State) : Prop :=
  (∀ r, r ∉ rs → t.reg r = s.reg r) ∧ (∀ x, x ∉ cells → t.read x = s.read x) ∧
    t.runState = s.runState ∧ t.halt = s.halt

/-- `pc <- u8(pc0 + n)` (R26, R27). -/
def AdvancesBy (n : Nat) (s t : State) : Prop := t.pc.toNat = (s.pc.toNat + n) % 256

/-- FL and the output are as before (R28, R134). -/
def KeepsFlagsAndOutput (s t : State) : Prop := t.fl = s.fl ∧ t.out = s.out

/-! ## Faults -/

/-- What a fault leaves (R203, R204, R207): `s` with run state Halted and the halt record written, halt_pc the pc of
the instruction; every register, pc, FL, every cell and the output as before. -/
def haltedBy (cause : HaltCause) (s : State) (op operand : Byte) : State :=
  { s with runState := .halted, halt := { cause := cause, pc := s.pc, opcode := op, operand := operand } }

/-- A one-register instruction raises InvalidRegister on every operand byte above 7 (R204). -/
def RejectsBadRegister (op : Byte) (mk : Byte → Instr) : Prop :=
  ∀ (s : State) (a : Byte), 7 < a.toNat → exec (mk a) s = .next (haltedBy .invalidRegister s op a)

/-- A two-register instruction raises InvalidRegister if a > 7, else if b > 7, naming that byte (R204, R206). -/
def RejectsBadRegisters (op : Byte) (mk : Byte → Byte → Instr) : Prop :=
  ∀ (s : State) (a b : Byte),
    (7 < a.toNat → exec (mk a b) s = .next (haltedBy .invalidRegister s op a)) ∧
    (a.toNat ≤ 7 → 7 < b.toNat → exec (mk a b) s = .next (haltedBy .invalidRegister s op b))

/-- The 239 illegal opcode bytes, by the ranges R75 lists. -/
def isIllegalByte (op : Byte) : Bool :=
  let n := op.toNat
  n == 0x00 || (0x02 ≤ n && n ≤ 0x10) || (0x12 ≤ n && n ≤ 0x44) || (0x48 ≤ n && n ≤ 0x4F) || (0x51 ≤ n && n ≤ 0x53) ||
    (0x57 ≤ n && n ≤ 0x68) || (0x6A ≤ n && n ≤ 0x81) || (0x83 ≤ n && n ≤ 0x9F) || n == 0xA1 ||
    (0xA3 ≤ n && n ≤ 0xA6) || n == 0xA9 || (0xAC ≤ n && n ≤ 0xFF)

/-! ## What a rule says of one instruction -/

/-- The bytes `op`, a of a one-register instruction are the instruction `mk a` and its length is 2 (R71, R73). -/
def OneRegisterEncoding (op : Byte) (mk : Byte → Instr) : Prop :=
  ∀ a b : Byte, decode op a b = .instr (mk a) ∧ encode (mk a) = [op, a]

/-- The bytes `op`, a, b of a three-byte instruction are the instruction `mk a b` (R71, R73). -/
def ThreeByteEncoding (op : Byte) (mk : Byte → Byte → Instr) : Prop :=
  ∀ a b : Byte, decode op a b = .instr (mk a b) ∧ encode (mk a b) = [op, a, b]

/-- The rule of a two-register ALU instruction (R101-R107): its bytes, `x[a] <- f x[a] x[b]` on the values before, pc
advanced by 3, nothing else changed, and its one exception. -/
def AluPairRule (op : Byte) (mk : Byte → Byte → Instr) (f : Nat → Nat → Nat) : Prop :=
  ThreeByteEncoding op mk ∧
  (∀ (s : State) (a b : RegIdx), ∃ t, exec (mk (regByte a) (regByte b)) s = .next t ∧
    (t.reg a).toNat = f (s.reg a).toNat (s.reg b).toNat ∧
    AdvancesBy 3 s t ∧ KeepsFlagsAndOutput s t ∧ Frame [a] [] s t) ∧
  RejectsBadRegisters op mk

/-- The rule of a jump or branch to x[a] under a condition on FL (R172-R174): its bytes, the pc it leaves, nothing else
changed, and its one exception, raised whatever the condition. -/
def BranchRule (op : Byte) (mk : Byte → Instr) (taken : Flags → Prop) : Prop :=
  OneRegisterEncoding op mk ∧
  (∀ (s : State) (a : RegIdx), ∃ t, exec (mk (regByte a)) s = .next t ∧
    (taken s.fl → t.pc = s.reg a) ∧ (¬ taken s.fl → AdvancesBy 2 s t) ∧
    KeepsFlagsAndOutput s t ∧ Frame [] [] s t) ∧
  RejectsBadRegister op mk

/-- The register a well-formed operand byte names. -/
def regOf (a : Byte) : RegIdx := Fin.ofNat 8 a.toNat

/-- The registers an instruction may write (R24's table; SP is x[7]). -/
def writtenRegs : Instr → List RegIdx
  | .hlt | .prn _ | .cmp _ _ | .jmp _ | .jeq _ | .jne _ => []
  | .ldi a _ | .not a => [regOf a]
  | .add a _ | .mul a _ | .and a _ | .or a _ | .xor a _ => [regOf a]
  | .push _ | .call _ | .ret => [7]
  | .pop a => [regOf a, 7]

/-- Whether an instruction takes its next pc from a register or the stack when it runs in `s` (R26). -/
def setsPc (s : State) : Instr → Bool
  | .jmp _ | .call _ | .ret => true
  | .jeq _ => s.fl.getLsbD 0
  | .jne _ => !s.fl.getLsbD 0
  | _ => false

/-! ## Ended runs and the invariant -/

/-- A run ended, and ended normally: the run state is Halted and halt_cause is HLT (R133). -/
def HaltedNormally (s : State) : Prop := s.runState = .halted ∧ s.halt.cause = .hlt

/-- The core of a stopped machine agrees with its halt record, and a Running one's record is clear (R30, R31, R202):
after HLT the record names the HLT at halt_pc and pc stands behind it; after a fault pc stands at halt_pc, where the
memory still holds the byte or the operand the record names. -/
def HaltRecordAgrees (s : State) : Prop :=
  match s.runState, s.halt.cause with
  | .running, .none => s.halt = HaltRecord.clear
  | .halted, .hlt =>
    s.halt.opcode = 0x01 ∧ s.halt.operand = 0x00 ∧ s.pc.toNat = (s.halt.pc.toNat + 1) % 256 ∧ s.read s.halt.pc = 0x01
  | .halted, .illegalInstruction =>
    isIllegalByte s.halt.opcode = true ∧ s.halt.operand = 0x00 ∧ s.pc = s.halt.pc ∧ s.read s.pc = s.halt.opcode
  | .halted, .invalidRegister =>
    isIllegalByte s.halt.opcode = false ∧ 7 < s.halt.operand.toNat ∧ s.pc = s.halt.pc ∧ s.read s.pc = s.halt.opcode ∧
      (s.read (u8 (s.pc.toNat + 1)) = s.halt.operand ∨
        (s.read (u8 (s.pc.toNat + 1))).toNat ≤ 7 ∧ s.read (u8 (s.pc.toNat + 2)) = s.halt.operand)
  | _, _ => False

/-- The invariant of the machine: memory is in canonical form, at most one flag is set, and the halt record agrees with
the run state and the memory. -/
structure Inv (s : State) : Prop where
  memCanonical : s.mem.wf
  flagsExclusive : s.fl = 0b000 ∨ s.fl = 0b001 ∨ s.fl = 0b010 ∨ s.fl = 0b100
  haltAgrees : HaltRecordAgrees s

end Sys2Proof.Machine
end

