-- ==== Sys2Proof/Certificates/Slice0/Obligations.lean ====
section
/-! DEFINITION. The statements for the provers, from the numbered rules of spec/ file by file. Where a clause is a
decision the spec marks as its own (D<n> of spec/92_eei_decisions.md) the docstring names it. -/

open Sys2Proof Sys2Proof.Machine

/-! ## Encoding, decode, the step (spec/30_encoding.md) -/

/-- Words written out bit by bit from the encodings of R71 and R73, one of each format, are the instructions they stand
for. -/
def Obligations.DecodesWrittenOutWords : Prop :=
  decode 0b00000001 0b00000000 0b00000000 = .instr .hlt ∧
  decode 0b10000010 0b00000111 0b11111111 = .instr (.ldi 7 255) ∧
  decode 0b01000111 0b00000110 0b00000000 = .instr (.prn 6) ∧
  decode 0b10100000 0b00000001 0b00000010 = .instr (.add 1 2) ∧
  decode 0b01000101 0b00000011 0b00000000 = .instr (.push 3) ∧
  decode 0b01010110 0b00000100 0b00000000 = .instr (.jne 4) ∧
  decode 0b10100001 0b00000000 0b00000001 = .illegalInstruction 0b10100001

/-- The dispatcher table has exactly the rows of R73: each opcode byte is its instruction with its length and mnemonic,
whatever the bytes after it, and a byte decodes to an instruction exactly if it is none of R75's 239 illegal bytes. -/
def Obligations.OpcodeMapIsTheTable : Prop :=
  (∀ a b : Byte,
    decode 0x01 a b = .instr .hlt ∧ decode 0x82 a b = .instr (.ldi a b) ∧ decode 0x47 a b = .instr (.prn a) ∧
    decode 0xA0 a b = .instr (.add a b) ∧ decode 0xA2 a b = .instr (.mul a b) ∧ decode 0x45 a b = .instr (.push a) ∧
    decode 0x46 a b = .instr (.pop a) ∧ decode 0x50 a b = .instr (.call a) ∧ decode 0x11 a b = .instr .ret ∧
    decode 0xA8 a b = .instr (.and a b) ∧ decode 0x69 a b = .instr (.not a) ∧ decode 0xAA a b = .instr (.or a b) ∧
    decode 0xAB a b = .instr (.xor a b) ∧ decode 0xA7 a b = .instr (.cmp a b) ∧ decode 0x54 a b = .instr (.jmp a) ∧
    decode 0x56 a b = .instr (.jne a) ∧ decode 0x55 a b = .instr (.jeq a)) ∧
  (allOpcodes.map fun o => (opcodeMnemonic o, formatLength (opcodeFormat o))) =
    [("HLT", 1), ("LDI", 3), ("PRN", 2), ("ADD", 3), ("MUL", 3), ("PUSH", 2), ("POP", 2), ("CALL", 2), ("RET", 1),
     ("AND", 3), ("NOT", 2), ("OR", 3), ("XOR", 3), ("CMP", 3), ("JMP", 2), ("JNE", 2), ("JEQ", 2)] ∧
  (∀ op a b : Byte, (∃ i, decode op a b = .instr i) ↔ isIllegalByte op = false)

/-- The bytes of any instruction, placed anywhere in any memory (wrapping past 0xFF, R27), are fetched and decoded back
to that instruction, and a Running core at them runs it. -/
def Obligations.EncodedInstructionIsFetchedBack : Prop :=
  ∀ (s : State) (p : Byte) (i : Instr),
    ((s.placeBytes p (encode i)).setPc p).fetchDecoded = .instr i ∧
    (s.runState = .running →
      step ((s.placeBytes p (encode i)).setPc p) = exec i ((s.placeBytes p (encode i)).setPc p))

/-- Each instruction has one encoding: whatever three bytes decode to an instruction begin with that instruction's
encoding, of its length, and the bytes past it do not matter. -/
def Obligations.DecodedBytesAreTheEncoding : Prop :=
  ∀ (op a b : Byte) (i : Instr), decode op a b = .instr i →
    encode i = [op, a, b].take (instrLength i) ∧ (encode i).length = instrLength i ∧
    (instrLength i ≤ 2 → ∀ b', decode op a b' = .instr i) ∧ (instrLength i = 1 → ∀ a' b', decode op a' b' = .instr i)

/-- R74 (which the spec marks derived): for every row, length = op[7:6] + 1, op[5] is set exactly for the ALU and
compare operations, op[4] exactly for those that set pc. -/
def Obligations.OpcodeBitsGiveLengthAndClass : Prop :=
  ∀ o : Opcode,
    formatLength (opcodeFormat o) = (opcodeByte o).toNat / 64 + 1 ∧
    ((opcodeByte o).getLsbD 5 = true ↔ o ∈ [Opcode.add, .mul, .and, .not, .or, .xor, .cmp]) ∧
    ((opcodeByte o).getLsbD 4 = true ↔ o ∈ [Opcode.call, .ret, .jmp, .jeq, .jne])

/-- A step of a Running core whose bytes at pc, u8(pc+1), u8(pc+2) decode to an instruction is exec of that instruction
at that state, well formed or not, and nothing is added around it; one whose opcode byte is rejected takes the
IllegalInstruction halt (R77, R78). -/
def Obligations.StepRunsDecodedInstruction : Prop :=
  ∀ s : State, s.runState = .running →
    (∀ i, decode (s.read s.pc) (s.read (u8 (s.pc.toNat + 1))) (s.read (u8 (s.pc.toNat + 2))) = .instr i →
      step s = exec i s) ∧
    (∀ op, decode (s.read s.pc) (s.read (u8 (s.pc.toNat + 1))) (s.read (u8 (s.pc.toNat + 2))) =
        .illegalInstruction op →
      op = s.read s.pc ∧ step s = .next (haltedBy .illegalInstruction s op 0x00))

/-! ## The instructions (spec/40_alu.md, 41_load_output_halt.md, 42_stack.md, 43_compare_branch.md)

Each states the bytes, the next state with its frame, and the exception of one instruction. -/

/-- ADD (R102). -/
def Obligations.AddWritesSumModulo256 : Prop := AluPairRule 0xA0 .add fun p q => (p + q) % 256

/-- MUL (R103). -/
def Obligations.MulWritesLowByteOfProduct : Prop := AluPairRule 0xA2 .mul fun p q => (p * q) % 256

/-- AND (R104). -/
def Obligations.AndWritesBitwiseAnd : Prop := AluPairRule 0xA8 .and fun p q => p &&& q

/-- OR (R106). -/
def Obligations.OrWritesBitwiseOr : Prop := AluPairRule 0xAA .or fun p q => p ||| q

/-- XOR (R107). -/
def Obligations.XorWritesBitwiseXor : Prop := AluPairRule 0xAB .xor fun p q => p ^^^ q

/-- NOT (R105; the 8-bit width of the complement is the spec's own decision D14). -/
def Obligations.NotWritesEightBitComplement : Prop :=
  OneRegisterEncoding 0x69 .not ∧
  (∀ (s : State) (a : RegIdx), ∃ t, exec (.not (regByte a)) s = .next t ∧
    (t.reg a).toNat = 255 - (s.reg a).toNat ∧ AdvancesBy 2 s t ∧ KeepsFlagsAndOutput s t ∧ Frame [a] [] s t) ∧
  RejectsBadRegister 0x69 .not

/-- HLT (R130; that pc advances is the spec's own decision D25): pc moves past the HLT, the core is Halted and the
record names the HLT at pc0. -/
def Obligations.HltAdvancesPcAndHalts : Prop :=
  (∀ a b : Byte, decode 0x01 a b = .instr .hlt) ∧ encode .hlt = [0x01] ∧
  ∀ s : State, ∃ t, exec .hlt s = .next t ∧ t.runState = .halted ∧
    t.halt = { cause := .hlt, pc := s.pc, opcode := 0x01, operand := 0x00 } ∧
    AdvancesBy 1 s t ∧ KeepsFlagsAndOutput s t ∧ (∀ r, t.reg r = s.reg r) ∧ ∀ x, t.read x = s.read x

/-- LDI (R131): any immediate byte into any register, SP among them. -/
def Obligations.LdiWritesTheImmediate : Prop :=
  ThreeByteEncoding 0x82 .ldi ∧
  (∀ (s : State) (a : RegIdx) (imm : Byte), ∃ t, exec (.ldi (regByte a) imm) s = .next t ∧
    t.reg a = imm ∧ AdvancesBy 3 s t ∧ KeepsFlagsAndOutput s t ∧ Frame [a] [] s t) ∧
  (∀ (s : State) (a imm : Byte), 7 < a.toNat →
    exec (.ldi a imm) s = .next (haltedBy .invalidRegister s 0x82 a))

/-- PRN (R132): one output event, after every earlier one, carrying x[a]. -/
def Obligations.PrnEmitsTheRegister : Prop :=
  OneRegisterEncoding 0x47 .prn ∧
  (∀ (s : State) (a : RegIdx), ∃ t, exec (.prn (regByte a)) s = .next t ∧
    t.out = s.out ++ [s.reg a] ∧ AdvancesBy 2 s t ∧ t.fl = s.fl ∧ Frame [] [] s t) ∧
  RejectsBadRegister 0x47 .prn

/-- PUSH (R151, R155; that PUSH R7 stores the decremented SP is the spec's own decision D24, that SP wraps and no bound
is checked D17): SP decremented modulo 256, x[a] as it stands after that at the new SP. -/
def Obligations.PushStoresBelowTheStackPointer : Prop :=
  OneRegisterEncoding 0x45 .push ∧
  (∀ (s : State) (a : RegIdx), ∃ t, exec (.push (regByte a)) s = .next t ∧
    s.pushAddr.toNat = (s.sp.toNat + 255) % 256 ∧ t.sp = s.pushAddr ∧ t.read s.pushAddr = t.reg a ∧
    AdvancesBy 2 s t ∧ KeepsFlagsAndOutput s t ∧ Frame [7] [s.pushAddr] s t) ∧
  RejectsBadRegister 0x45 .push

/-- POP (R152, R155; the order of the load and the increment for R7 is the spec's own decision D24, the wrap D17):
x[a] takes M[SP], SP is incremented modulo 256 after that, so POP R7 leaves the popped value plus one. -/
def Obligations.PopLoadsFromTheStackPointer : Prop :=
  OneRegisterEncoding 0x46 .pop ∧
  (∀ (s : State) (a : RegIdx), ∃ t, exec (.pop (regByte a)) s = .next t ∧
    (a ≠ 7 → t.reg a = s.read s.sp ∧ t.sp.toNat = (s.sp.toNat + 1) % 256) ∧
    (a = 7 → t.sp.toNat = ((s.read s.sp).toNat + 1) % 256) ∧
    AdvancesBy 2 s t ∧ KeepsFlagsAndOutput s t ∧ Frame [a, 7] [] s t) ∧
  RejectsBadRegister 0x46 .pop

/-- CALL (R153, R155; the order for R7 is the spec's own decision D24, the wrap D17): the return address u8(pc0 + 2) is
stored at the decremented SP and pc takes x[a] as it stands after that. -/
def Obligations.CallPushesReturnAddressAndJumps : Prop :=
  OneRegisterEncoding 0x50 .call ∧
  (∀ (s : State) (a : RegIdx), ∃ t, exec (.call (regByte a)) s = .next t ∧
    s.pushAddr.toNat = (s.sp.toNat + 255) % 256 ∧ t.sp = s.pushAddr ∧
    (t.read s.pushAddr).toNat = (s.pc.toNat + 2) % 256 ∧ t.pc = t.reg a ∧
    KeepsFlagsAndOutput s t ∧ Frame [7] [s.pushAddr] s t) ∧
  RejectsBadRegister 0x50 .call

/-- RET (R154): pc takes the byte at SP, whatever put it there, and SP is incremented modulo 256. -/
def Obligations.RetPopsThePc : Prop :=
  (∀ a b : Byte, decode 0x11 a b = .instr .ret) ∧ encode .ret = [0x11] ∧
  ∀ s : State, ∃ t, exec .ret s = .next t ∧ t.pc = s.read s.sp ∧ t.sp.toNat = (s.sp.toNat + 1) % 256 ∧
    KeepsFlagsAndOutput s t ∧ Frame [7] [] s t

/-- CMP (R170, R171; that the order is unsigned is the spec's own decision D15): exactly one of Greater, Less, Equal. -/
def Obligations.CmpSetsExactlyOneFlag : Prop :=
  ThreeByteEncoding 0xA7 .cmp ∧
  (∀ (s : State) (a b : RegIdx), ∃ t, exec (.cmp (regByte a) (regByte b)) s = .next t ∧
    ((s.reg b).toNat < (s.reg a).toNat → t.fl = 0b010) ∧
    ((s.reg a).toNat < (s.reg b).toNat → t.fl = 0b100) ∧
    (s.reg a = s.reg b → t.fl = 0b001) ∧
    AdvancesBy 3 s t ∧ t.out = s.out ∧ Frame [] [] s t) ∧
  RejectsBadRegisters 0xA7 .cmp

/-- JMP (R172): always taken, no flag read. -/
def Obligations.JmpTakesTheRegister : Prop := BranchRule 0x54 .jmp fun _ => True

/-- JEQ (R173; that an untaken one still checks its operand is the spec's own decision D9): taken exactly if FL.E,
bit 0, is 1. -/
def Obligations.JeqTakenWhenEqualSet : Prop := BranchRule 0x55 .jeq fun f => f.getLsbD 0 = true

/-- JNE (R174; the same decision D9): taken exactly if FL.E is 0. -/
def Obligations.JneTakenWhenEqualClear : Prop := BranchRule 0x56 .jne fun f => f.getLsbD 0 = false

/-! ## Faults and halts (spec/60_exceptions.md, spec/10_state.md section 4) -/

/-- R75, R203: every byte is an instruction or one of the 239 listed; on a listed one a Running core halts with the byte
and pc in the record and nothing else changed, whatever bytes follow it. -/
def Obligations.IllegalByteHaltsPrecisely : Prop :=
  ((List.range 256).filter fun n => isIllegalByte (u8 n)).length = 239 ∧
  (∀ op a b : Byte, (isIllegalByte op = true → decode op a b = .illegalInstruction op) ∧
    (isIllegalByte op = false → ∃ i, decode op a b = .instr i)) ∧
  ∀ s : State, s.runState = .running → isIllegalByte (s.read s.pc) = true →
    step s = .next (haltedBy .illegalInstruction s (s.read s.pc) 0x00)

/-- Every instruction with a register operand above 7 halts with the first such byte in the record and changes nothing
else, and an instruction without one is well formed (R204, R206: precise, checked before any effect and in byte order
by the spec's own decisions D8, D9, D10). -/
def Obligations.BadRegisterOperandHaltsPrecisely : Prop :=
  ∀ (i : Instr) (s : State),
    (∀ r, i.firstBadRegister = some r →
      7 < r.toNat ∧ exec i s = .next (haltedBy .invalidRegister s (opcodeByte i.opcode) r)) ∧
    (i.firstBadRegister = none ↔ i.wellFormed = true)

/-- A step that ends in a fault changes the run state and the halt record only, and halt_pc = pc is the address of the
faulting instruction (R207); that a further step requested in Halted changes nothing is the spec's own decision D21 (R82;
log entries 6 and 7). -/
def Obligations.FaultChangesOnlyTheHaltRecord : Prop :=
  ∀ s t : State, s.runState = .running → step s = .next t → t.runState = .halted → ¬ HaltedNormally t →
    t = { s with runState := .halted, halt := t.halt } ∧ t.halt.pc = t.pc ∧ step t = .next t

/-- A Running core becomes Halted exactly on HLT, an illegal byte or a bad register operand, and the record says which
(R133); that a Halted core stays in that final state however many steps are asked for is the spec's own decision D21 (R82;
log entries 6 and 7). -/
def Obligations.RunEndsExactlyOnHltOrFault : Prop :=
  (∀ s t : State, s.runState = .running → step s = .next t →
    (t.runState = .halted ∧ t.halt.cause = .hlt ↔ s.fetchDecoded = .instr .hlt) ∧
    (t.runState = .halted ∧ t.halt.cause = .illegalInstruction ↔ isIllegalByte (s.read s.pc) = true) ∧
    (t.runState = .halted ∧ t.halt.cause = .invalidRegister ↔
      ∃ i, s.fetchDecoded = .instr i ∧ i.wellFormed = false) ∧
    (t.runState = .halted → t.halt.cause ≠ .none)) ∧
  ∀ (k : Nat) (s : State), s.runState = .halted → core.run k s = .next s

/-- No step of any state and no instruction in any state faults or is refused: the only exceptional conditions are the
two halts, which have a next state (R202: no overflow, divide, alignment or memory fault). -/
def Obligations.EveryStepAnswersNext : Prop :=
  (∀ s : State, ∃ t, step s = .next t) ∧ ∀ (i : Instr) (s : State), ∃ t, exec i s = .next t

/-! ## Whole-machine rules -/

/-- Every well-formed instruction that does not set pc advances it by its length; JMP, CALL and a taken branch take x[a],
RET the byte at SP (R26). That CALL takes x[a] as its push left it, so that CALL R7 goes to the decremented SP, is the
spec's own decision D24 (R153), that HLT advances pc is D25 (R130), the wrap modulo 256 D3 (R27; log entry 6). -/
def Obligations.NextPcIsLengthOrTarget : Prop :=
  ∀ (i : Instr) (s : State), i.wellFormed = true → ∃ t, exec i s = .next t ∧
    (setsPc s i = false → t.pc.toNat = (s.pc.toNat + instrLength i) % 256) ∧
    (setsPc s i = true →
      (i = .ret ∧ t.pc = s.read s.sp) ∨ ∃ a, i ∈ [Instr.jmp a, .call a, .jeq a, .jne a] ∧ t.pc = t.reg (regOf a))

/-- Only CMP writes FL, no step writes it on any other instruction or on a fault, and after every CMP exactly one of the
three bits is set (R28). -/
def Obligations.OnlyCmpWritesFlags : Prop :=
  (∀ (i : Instr) (s t : State), exec i s = .next t → t.fl ≠ s.fl → ∃ a b, i = .cmp a b) ∧
  (∀ s t : State, step s = .next t → t.fl ≠ s.fl → s.runState = .running ∧ s.read s.pc = 0xA7) ∧
  ∀ (s t : State) (a b : RegIdx), exec (.cmp (regByte a) (regByte b)) s = .next t →
    t.fl = 0b001 ∨ t.fl = 0b010 ∨ t.fl = 0b100

/-- R134: a step emits the one event x[a] if it executes a PRN, and no event otherwise. -/
def Obligations.OnlyPrnEmitsOutput : Prop :=
  ∀ s t : State, step s = .next t →
    (∀ a : RegIdx, s.runState = .running → s.fetchDecoded = .instr (.prn (regByte a)) → t.out = s.out ++ [s.reg a]) ∧
    ((∀ a : RegIdx, ¬ (s.runState = .running ∧ s.fetchDecoded = .instr (.prn (regByte a)))) → t.out = s.out)

/-- The stores of R52's table: only PUSH and CALL write memory, and only the cell at the decremented SP. -/
def Obligations.OnlyPushAndCallStore : Prop :=
  ∀ (i : Instr) (s t : State) (x : Byte), exec i s = .next t → t.read x ≠ s.read x →
    (∃ a : RegIdx, i = .push (regByte a) ∨ i = .call (regByte a)) ∧ x = s.pushAddr

/-- The register writes of R24's table: an instruction changes no register its row does not name. -/
def Obligations.RegisterWritesFollowTheTable : Prop :=
  ∀ (i : Instr) (s t : State) (r : RegIdx), exec i s = .next t → t.reg r ≠ s.reg r → r ∈ writtenRegs i

/-- No instruction reads the halt record or the output (R32, R134): whatever they hold, a step of a Running core does the
same to everything else, emits the same events, and writes the record only if it halts. -/
def Obligations.HaltRecordAndOutputAreNeverRead : Prop :=
  ∀ (s t : State) (h : HaltRecord) (o : List Byte), s.runState = .running → step s = .next t →
    ∃ (t' : State) (e : List Byte), step { s with halt := h, out := o } = .next t' ∧
      t.out = s.out ++ e ∧ t' = { t with halt := t'.halt, out := o ++ e } ∧
      (t.runState = .halted → t'.halt = t.halt) ∧ (t.runState = .running → t.halt = s.halt ∧ t'.halt = h)

/-- FL.G and FL.L are never read (R29): two states that differ in them only take steps that differ in FL only, and not
even there after a CMP. -/
def Obligations.GreaterAndLessAreNeverRead : Prop :=
  ∀ (s t : State) (f : Flags), f.getLsbD 0 = s.fl.getLsbD 0 → step s = .next t →
    ∃ t', step { s with fl := f } = .next t' ∧ t' = { t with fl := t'.fl } ∧ (t'.fl = t.fl ∨ t.fl = s.fl ∧ t'.fl = f)

/-! ## Reset and launch (spec/10_state.md R33, spec/20_memory.md R61, spec/70_reset_and_hazards.md R230, R231) -/

/-- Reset, in either run state, leaves every register, pc, FL, the run state, the halt record and the output at R33's
values and memory as it was (the values but SP's are the spec's own decisions D4, D5, D6, D11, that memory survives is
D22); `State.reset` is that of a machine no image was placed in. -/
def Obligations.ResetRestoresAllButMemory : Prop :=
  (∀ s : State, (∀ r : RegIdx, r ≠ 7 → s.hostReset.reg r = 0x00) ∧ s.hostReset.sp = 0xF4 ∧ s.hostReset.pc = 0x00 ∧
    s.hostReset.fl = 0b000 ∧ s.hostReset.runState = .running ∧ s.hostReset.out = [] ∧
    s.hostReset.halt = { cause := .none, pc := 0x00, opcode := 0x00, operand := 0x00 } ∧
    ∀ x, s.hostReset.read x = s.read x) ∧
  State.reset.hostReset = State.reset ∧ ∀ x, State.reset.read x = 0x00

/-- A launch image of at most 256 bytes is the memory at reset, byte i at address i, and every other cell holds 0x00 (the
spec's own decision D7); a longer one is no launch image; the first step fetches the byte at 0x00 (D4). -/
def Obligations.LaunchPlacesTheImage : Prop :=
  (∀ image : List Byte, image.length ≤ 256 → ∃ s, launch image = some s ∧
    (∀ x : Byte, s.read x = image.getD x.toNat 0x00) ∧ s = { State.reset with mem := s.mem } ∧
    s.fetchDecoded = decode (image.getD 0 0x00) (image.getD 1 0x00) (image.getD 2 0x00)) ∧
  ∀ image : List Byte, 256 < image.length → launch image = none

/-! ## The invariant -/

/-- The reset state meets the invariant. -/
def Obligations.ResetMeetsTheInvariant : Prop := Inv State.reset

/-- Every launch state meets the invariant. -/
def Obligations.LaunchMeetsTheInvariant : Prop := ∀ (image : List Byte) (s : State), launch image = some s → Inv s

/-- Every step from every state that meets the invariant, reached or not, gives a state that meets it: memory stays
canonical, at most one flag is set, and the halt record agrees with the run state and with the bytes at halt_pc. -/
def Obligations.StepKeepsTheInvariant : Prop := ∀ s t : State, Inv s → step s = .next t → Inv t

/-- Every run of any number of steps from a state that meets the invariant ends in one that meets it. -/
def Obligations.EveryRunKeepsTheInvariant : Prop :=
  ∀ (k : Nat) (s t : State), Inv s → core.run k s = .next t → Inv t

/-- Two memories in canonical form whose 256 cells read alike are the same memory (log entry 1: the form is the
model's). -/
def Obligations.CanonicalMemoriesReadingAlikeAreEqual : Prop :=
  ∀ m m' : Memory, m.wf → m'.wf → (∀ x : Byte, m.read x.toNat = m'.read x.toNat) → m = m'

/-! ## Laws of two and three instructions (spec/41 R132, spec/42 R156, spec/43 R177, spec/40 R109) -/

/-- LDI r,v then PRN r emits v, for every r and v. -/
def Obligations.LdiThenPrnEmitsTheByte : Prop :=
  ∀ (s : State) (r : RegIdx) (v : Byte), ∃ t u, exec (.ldi (regByte r) v) s = .next t ∧
    exec (.prn (regByte r)) t = .next u ∧ u.out = s.out ++ [v]

/-- PUSH r then POP r', r and r' in R0..R6, moves x[r] to x[r'], restores SP and leaves the value in the cell below SP
(R156, which the spec marks derived). -/
def Obligations.PushThenPopMovesTheRegister : Prop :=
  ∀ (s : State) (r r' : RegIdx), r ≠ 7 → r' ≠ 7 → ∃ t u, exec (.push (regByte r)) s = .next t ∧
    exec (.pop (regByte r')) t = .next u ∧ u.reg r' = s.reg r ∧ u.sp = s.sp ∧ u.read s.pushAddr = s.reg r ∧
    ∀ q, q ≠ r' → u.reg q = s.reg q

/-- CALL then, from any state with SP and the cell at SP as the CALL left them, RET resumes at u8(pc0 + 2) with SP as
before the CALL (R156, which the spec marks derived). -/
def Obligations.CallThenReturnResumesAfterTheCall : Prop :=
  ∀ (s : State) (a : RegIdx), ∃ t, exec (.call (regByte a)) s = .next t ∧
    ∀ u : State, u.sp = t.sp → u.read u.sp = t.read t.sp →
      ∃ v, exec .ret u = .next v ∧ v.pc.toNat = (s.pc.toNat + 2) % 256 ∧ v.sp = s.sp

/-- CMP a,b then JEQ c branches and JNE c does not if x[a] = x[b], and the reverse otherwise (R177, its second sentence). -/
def Obligations.CompareDecidesTheBranch : Prop :=
  ∀ (s : State) (a b c : RegIdx), ∃ t u v, exec (.cmp (regByte a) (regByte b)) s = .next t ∧
    exec (.jeq (regByte c)) t = .next u ∧ exec (.jne (regByte c)) t = .next v ∧
    (s.reg a = s.reg b → u.pc = s.reg c ∧ v.pc.toNat = (s.pc.toNat + 5) % 256) ∧
    (s.reg a ≠ s.reg b → u.pc.toNat = (s.pc.toNat + 5) % 256 ∧ v.pc = s.reg c)

/-- NOT q; ADD q,one; ADD p,q subtracts q from p modulo 256 and leaves q's two's complement in q (R109, which the spec
marks derived). -/
def Obligations.ComplementAndAddSubtracts : Prop :=
  ∀ (s : State) (p q one : RegIdx), p ≠ q → one ≠ q → s.reg one = 0x01 →
    ∃ t u v, exec (.not (regByte q)) s = .next t ∧ exec (.add (regByte q) (regByte one)) t = .next u ∧
      exec (.add (regByte p) (regByte q)) u = .next v ∧
      (v.reg p).toNat = ((s.reg p).toNat + 256 - (s.reg q).toNat) % 256 ∧
      (v.reg q).toNat = (256 - (s.reg q).toNat) % 256

/-- A PUSH that overwrites its own operand byte runs with the byte it fetched, and the next fetch there sees the byte it
stored (R60; the order inside the instruction is the spec's own decision D18). -/
def Obligations.PushOverItsOperandUsesTheFetchedByte : Prop :=
  ∀ (s : State) (a : RegIdx), s.runState = .running → a ≠ 7 → s.read s.pc = 0x45 →
    s.read (u8 (s.pc.toNat + 1)) = regByte a → s.pushAddr = u8 (s.pc.toNat + 1) →
    ∃ t, step s = .next t ∧ t.read s.pushAddr = s.reg a ∧
      (t.setPc s.pc).fetchDecoded = .instr (.push (s.reg a))

/-- SUB and DIV of the ALU contract, which no opcode reaches (R115, R116; the spec's own decision D16). -/
def Obligations.AluContractOfSubAndDiv : Prop :=
  ∀ p q : Byte, (aluSub p q).toNat = (p.toNat + 256 - q.toNat) % 256 ∧ (q = 0 → aluDiv p q = none) ∧
    (q ≠ 0 → ∃ v, aluDiv p q = some v ∧ v.toNat = p.toNat / q.toNat)
end

