-- ==== Sys2Proof/Laws/Decode.lean ====
section
/-! SUPPORT. The dispatcher's lookup and the decoder, said once (spec/30_encoding.md R73, R75). -/

namespace Sys2Proof

/-- The lookup finds each row by its byte: no two rows share an opcode byte (R73). -/
theorem opcodeOfByte_opcodeByte (o : Opcode) : opcodeOfByte (opcodeByte o) = some o := by
  cases o <;> decide

/-- The lookup finds only the row whose byte it is given (R73: matched on the whole byte). -/
theorem opcodeOfByte_eq_some_iff {b : Byte} {o : Opcode} : opcodeOfByte b = some o ↔ b = opcodeByte o := by
  refine ⟨fun h => ?_, fun h => h ▸ opcodeOfByte_opcodeByte o⟩
  have := List.find?_some h
  simpa using (beq_iff_eq.1 this).symm

/-- The row of an assembled instruction is the row it was assembled from. -/
theorem opcode_assemble (o : Opcode) (a b : Byte) : (assemble o a b).opcode = o := by
  cases o <;> rfl

/-- Everything the decoder can answer. -/
theorem decode_cases (op a b : Byte) :
    (∃ o, op = opcodeByte o ∧ decode op a b = .instr (assemble o a b)) ∨
      (opcodeOfByte op = none ∧ decode op a b = .illegalInstruction op) := by
  cases h : opcodeOfByte op with
  | some o => exact .inl ⟨o, opcodeOfByte_eq_some_iff.1 h, by simp [decode, h]⟩
  | none => exact .inr ⟨rfl, by simp [decode, h]⟩

/-- The decoder on the opcode byte of a row. -/
theorem decode_opcodeByte (o : Opcode) (a b : Byte) : decode (opcodeByte o) a b = .instr (assemble o a b) := by
  simp [decode, opcodeOfByte_opcodeByte]

end Sys2Proof
end

