-- ==== Sys2Proof/Laws/Flags.lean ====
section
/-! SUPPORT. What the compare unit answers, said once (spec/43_compare_branch.md R170, R171). -/

namespace Sys2Proof.Machine

theorem compareFlags_greater {p q : Byte} (h : q.toNat < p.toNat) : compareFlags p q = 0b010 := by
  simp [compareFlags, h]

theorem compareFlags_less {p q : Byte} (h : p.toNat < q.toNat) : compareFlags p q = 0b100 := by
  unfold compareFlags
  rw [if_neg (by omega), if_pos h]

@[simp] theorem compareFlags_equal (p : Byte) : compareFlags p p = 0b001 := by
  simp [compareFlags]

/-- The Equal bit of a comparison is equality of the values (R177). -/
theorem flagE_compareFlags (p q : Byte) : flagE (compareFlags p q) = decide (p = q) := by
  rcases Nat.lt_trichotomy p.toNat q.toNat with h | h | h
  · have hne : p ≠ q := fun e => by simp [e] at h
    simp [compareFlags_less h, flagE, hne]
  · obtain rfl := BitVec.eq_of_toNat_eq h
    simp [flagE]
  · have hne : p ≠ q := fun e => by simp [e] at h
    simp [compareFlags_greater h, flagE, hne]

end Sys2Proof.Machine
end

