-- ==== Sys2Proof/Laws/State.lean ====
section
/-! SUPPORT. One lemma per field per update of the state, so that no later proof unfolds a record update. -/

namespace Sys2Proof.Machine

/-! ### setReg -/

@[simp] theorem State.setReg_pc (s : State) (r : RegIdx) (v : Byte) : (s.setReg r v).pc = s.pc := rfl
@[simp] theorem State.setReg_fl (s : State) (r : RegIdx) (v : Byte) : (s.setReg r v).fl = s.fl := rfl
@[simp] theorem State.setReg_runState (s : State) (r : RegIdx) (v : Byte) : (s.setReg r v).runState = s.runState := rfl
@[simp] theorem State.setReg_halt (s : State) (r : RegIdx) (v : Byte) : (s.setReg r v).halt = s.halt := rfl
@[simp] theorem State.setReg_mem (s : State) (r : RegIdx) (v : Byte) : (s.setReg r v).mem = s.mem := rfl
@[simp] theorem State.setReg_out (s : State) (r : RegIdx) (v : Byte) : (s.setReg r v).out = s.out := rfl
@[simp] theorem State.setReg_read (s : State) (r : RegIdx) (v : Byte) (x : Byte) : (s.setReg r v).read x = s.read x := rfl

/-! ### setPc -/

@[simp] theorem State.setPc_regs (s : State) (p : Byte) : (s.setPc p).regs = s.regs := rfl
@[simp] theorem State.setPc_fl (s : State) (p : Byte) : (s.setPc p).fl = s.fl := rfl
@[simp] theorem State.setPc_runState (s : State) (p : Byte) : (s.setPc p).runState = s.runState := rfl
@[simp] theorem State.setPc_halt (s : State) (p : Byte) : (s.setPc p).halt = s.halt := rfl
@[simp] theorem State.setPc_mem (s : State) (p : Byte) : (s.setPc p).mem = s.mem := rfl
@[simp] theorem State.setPc_out (s : State) (p : Byte) : (s.setPc p).out = s.out := rfl
@[simp] theorem State.setPc_reg (s : State) (p : Byte) (q : RegIdx) : (s.setPc p).reg q = s.reg q := rfl
@[simp] theorem State.setPc_sp (s : State) (p : Byte) : (s.setPc p).sp = s.sp := rfl
@[simp] theorem State.setPc_read (s : State) (p : Byte) (x : Byte) : (s.setPc p).read x = s.read x := rfl

/-! ### setFl -/

@[simp] theorem State.setFl_regs (s : State) (f : Flags) : (s.setFl f).regs = s.regs := rfl
@[simp] theorem State.setFl_pc (s : State) (f : Flags) : (s.setFl f).pc = s.pc := rfl
@[simp] theorem State.setFl_runState (s : State) (f : Flags) : (s.setFl f).runState = s.runState := rfl
@[simp] theorem State.setFl_halt (s : State) (f : Flags) : (s.setFl f).halt = s.halt := rfl
@[simp] theorem State.setFl_mem (s : State) (f : Flags) : (s.setFl f).mem = s.mem := rfl
@[simp] theorem State.setFl_out (s : State) (f : Flags) : (s.setFl f).out = s.out := rfl
@[simp] theorem State.setFl_reg (s : State) (f : Flags) (q : RegIdx) : (s.setFl f).reg q = s.reg q := rfl
@[simp] theorem State.setFl_sp (s : State) (f : Flags) : (s.setFl f).sp = s.sp := rfl
@[simp] theorem State.setFl_read (s : State) (f : Flags) (x : Byte) : (s.setFl f).read x = s.read x := rfl

/-! ### write -/

@[simp] theorem State.write_regs (s : State) (a v : Byte) : (s.write a v).regs = s.regs := rfl
@[simp] theorem State.write_pc (s : State) (a v : Byte) : (s.write a v).pc = s.pc := rfl
@[simp] theorem State.write_fl (s : State) (a v : Byte) : (s.write a v).fl = s.fl := rfl
@[simp] theorem State.write_runState (s : State) (a v : Byte) : (s.write a v).runState = s.runState := rfl
@[simp] theorem State.write_halt (s : State) (a v : Byte) : (s.write a v).halt = s.halt := rfl
@[simp] theorem State.write_out (s : State) (a v : Byte) : (s.write a v).out = s.out := rfl
@[simp] theorem State.write_reg (s : State) (a v : Byte) (q : RegIdx) : (s.write a v).reg q = s.reg q := rfl
@[simp] theorem State.write_sp (s : State) (a v : Byte) : (s.write a v).sp = s.sp := rfl

/-! ### emit -/

@[simp] theorem State.emit_regs (s : State) (v : Byte) : (s.emit v).regs = s.regs := rfl
@[simp] theorem State.emit_pc (s : State) (v : Byte) : (s.emit v).pc = s.pc := rfl
@[simp] theorem State.emit_fl (s : State) (v : Byte) : (s.emit v).fl = s.fl := rfl
@[simp] theorem State.emit_runState (s : State) (v : Byte) : (s.emit v).runState = s.runState := rfl
@[simp] theorem State.emit_halt (s : State) (v : Byte) : (s.emit v).halt = s.halt := rfl
@[simp] theorem State.emit_mem (s : State) (v : Byte) : (s.emit v).mem = s.mem := rfl
@[simp] theorem State.emit_reg (s : State) (v : Byte) (q : RegIdx) : (s.emit v).reg q = s.reg q := rfl
@[simp] theorem State.emit_sp (s : State) (v : Byte) : (s.emit v).sp = s.sp := rfl
@[simp] theorem State.emit_read (s : State) (v : Byte) (x : Byte) : (s.emit v).read x = s.read x := rfl

/-! ### haltWith -/

@[simp] theorem State.haltWith_regs (s : State) (h : HaltRecord) : (s.haltWith h).regs = s.regs := rfl
@[simp] theorem State.haltWith_pc (s : State) (h : HaltRecord) : (s.haltWith h).pc = s.pc := rfl
@[simp] theorem State.haltWith_fl (s : State) (h : HaltRecord) : (s.haltWith h).fl = s.fl := rfl
@[simp] theorem State.haltWith_mem (s : State) (h : HaltRecord) : (s.haltWith h).mem = s.mem := rfl
@[simp] theorem State.haltWith_out (s : State) (h : HaltRecord) : (s.haltWith h).out = s.out := rfl
@[simp] theorem State.haltWith_reg (s : State) (h : HaltRecord) (q : RegIdx) : (s.haltWith h).reg q = s.reg q := rfl
@[simp] theorem State.haltWith_sp (s : State) (h : HaltRecord) : (s.haltWith h).sp = s.sp := rfl
@[simp] theorem State.haltWith_read (s : State) (h : HaltRecord) (x : Byte) : (s.haltWith h).read x = s.read x := rfl

/-! ### What each update leaves in its own field -/

@[simp] theorem State.setPc_pc (s : State) (p : Byte) : (s.setPc p).pc = p := rfl
@[simp] theorem State.setFl_fl (s : State) (f : Flags) : (s.setFl f).fl = f := rfl
@[simp] theorem State.emit_out (s : State) (v : Byte) : (s.emit v).out = s.out ++ [v] := rfl
@[simp] theorem State.haltWith_runState (s : State) (h : HaltRecord) : (s.haltWith h).runState = .halted := rfl
@[simp] theorem State.haltWith_halt (s : State) (h : HaltRecord) : (s.haltWith h).halt = h := rfl
@[simp] theorem State.write_mem (s : State) (a v : Byte) : (s.write a v).mem = s.mem.write a.toNat v := rfl

/-- A register write changes the register named and no other (R20, R21). -/
theorem State.setReg_reg (s : State) (r q : RegIdx) (v : Byte) :
    (s.setReg r v).reg q = if r = q then v else s.reg q := by
  simp [State.setReg, State.reg, Vector.getElem_set, Fin.ext_iff]

@[simp] theorem State.setReg_reg_same (s : State) (r : RegIdx) (v : Byte) : (s.setReg r v).reg r = v := by
  simp [State.setReg_reg]

theorem State.setReg_reg_other (s : State) {r q : RegIdx} (v : Byte) (h : r ≠ q) :
    (s.setReg r v).reg q = s.reg q := by
  simp [State.setReg_reg, h]

/-- SP is x[7] (R22). -/
theorem State.sp_eq (s : State) : s.sp = s.reg 7 := rfl

end Sys2Proof.Machine
end

