-- ==== Sys2Proof/Laws/Memory.lean ====
section
/-! SUPPORT. The laws of memory: a read after a write, and that every operation keeps the canonical form (log entry 1). -/

namespace Sys2Proof.Machine

theorem Memory.read_removeCell (m : Memory) (a x : Nat) :
    (m.removeCell a).read x = if a = x then Config.unwrittenCell else m.read x := by
  induction m with
  | nil => simp [Memory.removeCell, Memory.read]
  | cons c m ih =>
    simp only [Memory.removeCell] at ih ⊢
    by_cases hc : c.1 = a
    · rw [List.filter_cons_of_neg (by simpa using hc), ih]
      by_cases hx : a = x
      · simp [hx]
      · simp [hx, Memory.read, hc]
    · rw [List.filter_cons_of_pos (by simpa using hc)]
      simp only [Memory.read, ih]
      by_cases hx : a = x
      · subst hx
        simp [hc]
      · simp [hx]

theorem Memory.read_insertCell {m : Memory} {a : Nat} (h : ∀ c ∈ m, c.1 ≠ a) (v : Byte) (x : Nat) :
    (m.insertCell a v).read x = if a = x then v else m.read x := by
  induction m with
  | nil => rfl
  | cons c m ih =>
    obtain ⟨k, w⟩ := c
    have hk : k ≠ a := h (k, w) List.mem_cons_self
    have ih := ih fun d hd => h d (List.mem_cons_of_mem _ hd)
    simp only [Memory.insertCell]
    split
    · rfl
    · simp only [Memory.read, ih]
      by_cases hx : k = x
      · subst hx
        simp [hk.symm]
      · simp [hx]

theorem Memory.removeCell_keys (m : Memory) (a : Nat) : ∀ c ∈ m.removeCell a, c.1 ≠ a := by
  intro c hc
  simpa using (List.mem_filter.1 hc).2

/-- A read after a write, in any memory: the byte written at that address, the byte before at every other (R56, R59). -/
theorem Memory.read_write (m : Memory) (a : Nat) (v : Byte) (x : Nat) :
    (m.write a v).read x = if a = x then v else m.read x := by
  unfold Memory.write
  split
  · rename_i hv
    rw [Memory.read_removeCell, hv]
  · rw [Memory.read_insertCell (m.removeCell_keys a), Memory.read_removeCell]
    by_cases hx : a = x <;> simp [hx]

theorem Memory.removeCell_wf {m : Memory} (hm : m.wf) (a : Nat) : (m.removeCell a).wf :=
  ⟨hm.1.filter _, fun c hc => hm.2 c (List.mem_filter.1 hc).1⟩

theorem Memory.mem_insertCell {m : Memory} {a : Nat} {v : Byte} {c : Host.Cell} (h : c ∈ m.insertCell a v) :
    c = (a, v) ∨ c ∈ m := by
  induction m with
  | nil => simpa [Memory.insertCell] using h
  | cons d m ih =>
    simp only [Memory.insertCell] at h
    split at h
    · simpa using h
    · rcases List.mem_cons.1 h with rfl | h
      · exact .inr List.mem_cons_self
      · exact (ih h).imp_right (List.mem_cons_of_mem _)

theorem Memory.insertCell_wf {m : Memory} (hm : m.wf) {a : Nat} {v : Byte} (ha : a < Config.memorySize)
    (hv : v ≠ Config.unwrittenCell) (h : ∀ c ∈ m, c.1 ≠ a) : (m.insertCell a v).wf := by
  refine ⟨?_, fun c hc => ?_⟩
  · induction m with
    | nil => simp [Memory.insertCell]
    | cons d m ih =>
      obtain ⟨k, w⟩ := d
      have hp := List.pairwise_cons.1 hm.1
      have hk : k ≠ a := h (k, w) List.mem_cons_self
      simp only [Memory.insertCell]
      split
      · rename_i hlt
        refine List.pairwise_cons.2 ⟨fun d hd => ?_, hm.1⟩
        rcases List.mem_cons.1 hd with rfl | hd
        · exact hlt
        · exact Nat.lt_trans hlt (hp.1 d hd)
      · refine List.pairwise_cons.2 ⟨fun d hd => ?_, ih ⟨hp.2, fun d hd => hm.2 d (List.mem_cons_of_mem _ hd)⟩
          fun d hd => h d (List.mem_cons_of_mem _ hd)⟩
        rcases Memory.mem_insertCell hd with rfl | hd
        · show k < a
          omega
        · exact hp.1 d hd
  · rcases Memory.mem_insertCell hc with rfl | hc
    · exact ⟨ha, hv⟩
    · exact hm.2 c hc

/-- A write inside the 256 cells keeps the canonical form. -/
theorem Memory.write_wf {m : Memory} (hm : m.wf) {a : Nat} (ha : a < Config.memorySize) (v : Byte) :
    (m.write a v).wf := by
  unfold Memory.write
  split
  · exact Memory.removeCell_wf hm a
  · rename_i hv
    exact Memory.insertCell_wf (Memory.removeCell_wf hm a) ha hv (m.removeCell_keys a)

/-- The memory of the reset state, with nothing listed, is canonical. -/
theorem Memory.nil_wf : Memory.wf [] := by simp [Memory.wf]

/-- Placing a launch image that fits keeps the canonical form. -/
theorem Memory.load_wf {m : Memory} (hm : m.wf) (a : Nat) (bs : List Byte)
    (h : a + bs.length ≤ Config.memorySize) : (Memory.load m a bs).wf := by
  induction bs generalizing m a with
  | nil => exact hm
  | cons b bs ih =>
    simp only [List.length_cons] at h
    exact ih (Memory.write_wf hm (by omega) b) (a + 1) (by omega)

/-- A read after an image was placed: its byte inside the image, the byte before outside. -/
theorem Memory.read_load (m : Memory) (a : Nat) (bs : List Byte) (x : Nat) :
    (Memory.load m a bs).read x = if a ≤ x ∧ x < a + bs.length then bs.getD (x - a) 0 else m.read x := by
  induction bs generalizing m a with
  | nil =>
    rw [Memory.load, if_neg]
    simp only [List.length_nil]
    omega
  | cons b bs ih =>
    rw [Memory.load, ih, Memory.read_write]
    by_cases hx : a = x
    · subst hx
      simp
    · by_cases hin : a + 1 ≤ x ∧ x < a + 1 + bs.length
      · have hs : x - a = (x - (a + 1)) + 1 := by omega
        rw [if_pos hin, if_pos (by simp only [List.length_cons]; omega), hs]
        rfl
      · rw [if_neg hin, if_neg hx, if_neg (by simp only [List.length_cons]; omega)]

/-! ### At the level of the state -/

/-- `MemRead` after `MemWrite` (R56, R59). -/
theorem State.write_read (s : State) (a v x : Byte) :
    (s.write a v).read x = if a = x then v else s.read x := by
  simp only [State.read, State.write, Memory.read_write, BitVec.toNat_inj]

/-- `MemWrite` keeps the canonical form: every address of the core is one of the 256 (R51). -/
theorem State.write_wf {s : State} (hs : s.mem.wf) (a v : Byte) : (s.write a v).mem.wf :=
  Memory.write_wf hs a.isLt v

/-- Placing bytes, wrapping or not, keeps the canonical form. -/
theorem State.placeBytes_wf {s : State} (hs : s.mem.wf) (a : Byte) (bs : List Byte) : (s.placeBytes a bs).mem.wf := by
  induction bs generalizing s a with
  | nil => exact hs
  | cons b bs ih => exact ih (State.write_wf hs a b) (offset a 1)

/-- Placing bytes changes memory only. -/
theorem State.placeBytes_eq (s : State) (a : Byte) (bs : List Byte) :
    s.placeBytes a bs = { s with mem := (s.placeBytes a bs).mem } := by
  induction bs generalizing s a with
  | nil => rfl
  | cons b bs ih => exact ih (s.write a b) (offset a 1)

/-- A reset leaves memory, so it keeps the canonical form (R230). -/
theorem State.hostReset_wf {s : State} (hs : s.mem.wf) : s.hostReset.mem.wf := hs

end Sys2Proof.Machine
end

