-- ==== Sys2Proof/Laws/Operands.lean ====
section
/-! SUPPORT. The operand forms and the stack operations, said once each (spec/30_encoding.md R72, R78, R80,
spec/42_stack.md R150). -/

namespace Sys2Proof.Machine

/-! ### Operand bytes -/

theorem regByte_toNat (r : RegIdx) : (regByte r).toNat = r.val := by
  have := r.isLt
  simp only [regByte, u8, BitVec.toNat_ofNat]
  omega

/-- An operand byte 0..7 names the register of that index (R72). -/
@[simp] theorem operandReg_regByte (r : RegIdx) : operandReg (regByte r) = some r := by
  have := r.isLt
  simp [operandReg, regByte_toNat]

/-- An operand byte above 7 names none (R72). -/
theorem operandReg_bad {a : Byte} (h : 7 < a.toNat) : operandReg a = none := by
  simp [operandReg]
  omega

/-- Every operand byte is the byte of a register or is above 7. -/
theorem operand_cases (a : Byte) : (∃ r, a = regByte r) ∨ 7 < a.toNat := by
  by_cases h : a.toNat < 8
  · refine .inl ⟨⟨a.toNat, h⟩, ?_⟩
    simp [regByte, u8]
  · exact .inr (by omega)

/-! ### The one-register form -/

@[simp] theorem withReg_regByte (o : Opcode) (r : RegIdx) (s : State) (k : RegIdx → State) :
    withReg o (regByte r) s k = .next (k r) := by
  simp [withReg]

theorem withReg_bad (o : Opcode) {a : Byte} (h : 7 < a.toNat) (s : State) (k : RegIdx → State) :
    withReg o a s k = .next (s.raiseInvalidRegister (opcodeByte o) a) := by
  simp [withReg, operandReg_bad h]

/-- Everything the one-register form can do. -/
theorem withReg_next {o : Opcode} {a : Byte} {s t : State} {k : RegIdx → State} (h : withReg o a s k = .next t) :
    (∃ r, a = regByte r ∧ t = k r) ∨ (7 < a.toNat ∧ t = s.raiseInvalidRegister (opcodeByte o) a) := by
  rcases operand_cases a with ⟨r, rfl⟩ | ha
  · rw [withReg_regByte] at h
    exact .inl ⟨r, rfl, (Host.Outcome.next.inj h).symm⟩
  · rw [withReg_bad o ha] at h
    exact .inr ⟨ha, (Host.Outcome.next.inj h).symm⟩

/-! ### The two-register form -/

@[simp] theorem withRegs_regByte (o : Opcode) (p q : RegIdx) (s : State) (k : RegIdx → RegIdx → State) :
    withRegs o (regByte p) (regByte q) s k = .next (k p q) := by
  simp [withRegs]

theorem withRegs_bad_first (o : Opcode) {a : Byte} (b : Byte) (h : 7 < a.toNat) (s : State)
    (k : RegIdx → RegIdx → State) :
    withRegs o a b s k = .next (s.raiseInvalidRegister (opcodeByte o) a) := by
  simp [withRegs, operandReg_bad h]

theorem withRegs_bad_second (o : Opcode) (p : RegIdx) {b : Byte} (h : 7 < b.toNat) (s : State)
    (k : RegIdx → RegIdx → State) :
    withRegs o (regByte p) b s k = .next (s.raiseInvalidRegister (opcodeByte o) b) := by
  simp [withRegs, operandReg_bad h]

/-- Everything the two-register form can do. -/
theorem withRegs_next {o : Opcode} {a b : Byte} {s t : State} {k : RegIdx → RegIdx → State}
    (h : withRegs o a b s k = .next t) :
    (∃ p q, a = regByte p ∧ b = regByte q ∧ t = k p q) ∨
      (7 < a.toNat ∧ t = s.raiseInvalidRegister (opcodeByte o) a) ∨
      (∃ p, a = regByte p ∧ 7 < b.toNat ∧ t = s.raiseInvalidRegister (opcodeByte o) b) := by
  rcases operand_cases a with ⟨p, rfl⟩ | ha
  · rcases operand_cases b with ⟨q, rfl⟩ | hb
    · rw [withRegs_regByte] at h
      exact .inl ⟨p, q, rfl, rfl, (Host.Outcome.next.inj h).symm⟩
    · rw [withRegs_bad_second o p hb] at h
      exact .inr (.inr ⟨p, rfl, hb, (Host.Outcome.next.inj h).symm⟩)
  · rw [withRegs_bad_first o b ha] at h
    exact .inr (.inl ⟨ha, (Host.Outcome.next.inj h).symm⟩)

/-! ### Addresses and the stack -/

/-- Addresses and pc wrap modulo 256 (R27, R51). -/
theorem offset_toNat (a : Byte) (n : Nat) : (offset a n).toNat = (a.toNat + n) % 256 := by
  simp [offset, u8]

@[simp] theorem State.decSp_sp (s : State) : s.decSp.sp = s.pushAddr := by simp [State.decSp, State.setSp, State.sp]

@[simp] theorem State.incSp_sp (s : State) : s.incSp.sp = s.spAfterPop := by simp [State.incSp, State.setSp, State.sp]

/-- A pop undoes the SP update of a push (R156). -/
theorem offset_push_pop (a : Byte) : offset (offset a 255) 1 = a := by
  apply BitVec.eq_of_toNat_eq
  have := a.isLt
  rw [offset_toNat, offset_toNat]
  omega

theorem State.decSp_reg (s : State) {r : RegIdx} (h : r ≠ 7) : s.decSp.reg r = s.reg r :=
  State.setReg_reg_other s _ (Ne.symm h)

theorem State.incSp_reg (s : State) {r : RegIdx} (h : r ≠ 7) : s.incSp.reg r = s.reg r :=
  State.setReg_reg_other s _ (Ne.symm h)

@[simp] theorem State.decSp_read (s : State) (x : Byte) : s.decSp.read x = s.read x := rfl
@[simp] theorem State.incSp_read (s : State) (x : Byte) : s.incSp.read x = s.read x := rfl
@[simp] theorem State.decSp_mem (s : State) : s.decSp.mem = s.mem := rfl
@[simp] theorem State.incSp_mem (s : State) : s.incSp.mem = s.mem := rfl
@[simp] theorem State.decSp_fl (s : State) : s.decSp.fl = s.fl := rfl
@[simp] theorem State.incSp_fl (s : State) : s.incSp.fl = s.fl := rfl
@[simp] theorem State.decSp_pc (s : State) : s.decSp.pc = s.pc := rfl
@[simp] theorem State.incSp_pc (s : State) : s.incSp.pc = s.pc := rfl
@[simp] theorem State.decSp_runState (s : State) : s.decSp.runState = s.runState := rfl
@[simp] theorem State.incSp_runState (s : State) : s.incSp.runState = s.runState := rfl
@[simp] theorem State.decSp_halt (s : State) : s.decSp.halt = s.halt := rfl
@[simp] theorem State.incSp_halt (s : State) : s.incSp.halt = s.halt := rfl
@[simp] theorem State.decSp_out (s : State) : s.decSp.out = s.out := rfl
@[simp] theorem State.incSp_out (s : State) : s.incSp.out = s.out := rfl

/-! ### Faults: the halt record and the run state, and nothing else (R207) -/

theorem State.raiseInvalidRegister_eq (s : State) (op r : Byte) :
    s.raiseInvalidRegister op r =
      { s with runState := .halted, halt := ⟨.invalidRegister, s.pc, op, r⟩ } := rfl

theorem State.raiseIllegalInstruction_eq (s : State) (op : Byte) :
    s.raiseIllegalInstruction op =
      { s with runState := .halted, halt := ⟨.illegalInstruction, s.pc, op, 0x00⟩ } := rfl

end Sys2Proof.Machine
end

