-- ==== Sys2Proof/Laws/Exec.lean ====
section
/-! SUPPORT. Everything an instruction can do, said once: an InvalidRegister halt on its first bad operand, or the one
effect of its row on the registers its operand bytes name. -/

namespace Sys2Proof.Machine

/-- `Effect s i t`: the instruction `i` may take `s` to `t`. -/
inductive Effect (s : State) : Instr → State → Prop
  | badRegister {i : Instr} {r : Byte} (h : i.firstBadRegister = some r) :
      Effect s i (s.raiseInvalidRegister (opcodeByte i.opcode) r)
  | hlt : Effect s .hlt ((s.setPc (s.pcAfter 1)).haltWith ⟨.hlt, s.pc, 0x01, 0x00⟩)
  | ldi (r : RegIdx) (v : Byte) : Effect s (.ldi (regByte r) v) ((s.setReg r v).setPc (s.pcAfter 3))
  | prn (r : RegIdx) : Effect s (.prn (regByte r)) ((s.emit (s.reg r)).setPc (s.pcAfter 2))
  | add (p q : RegIdx) :
      Effect s (.add (regByte p) (regByte q)) ((s.setReg p (aluAdd (s.reg p) (s.reg q))).setPc (s.pcAfter 3))
  | mul (p q : RegIdx) :
      Effect s (.mul (regByte p) (regByte q)) ((s.setReg p (aluMul (s.reg p) (s.reg q))).setPc (s.pcAfter 3))
  | push (r : RegIdx) :
      Effect s (.push (regByte r)) ((s.decSp.write s.pushAddr (s.decSp.reg r)).setPc (s.pcAfter 2))
  | pop (r : RegIdx) : Effect s (.pop (regByte r)) ((s.setReg r (s.read s.sp)).incSp.setPc (s.pcAfter 2))
  | call (r : RegIdx) :
      Effect s (.call (regByte r)) ((s.decSp.write s.pushAddr (s.pcAfter 2)).setPc (s.decSp.reg r))
  | ret : Effect s .ret (s.incSp.setPc (s.read s.sp))
  | and (p q : RegIdx) :
      Effect s (.and (regByte p) (regByte q)) ((s.setReg p (aluAnd (s.reg p) (s.reg q))).setPc (s.pcAfter 3))
  | not (r : RegIdx) : Effect s (.not (regByte r)) ((s.setReg r (aluNot (s.reg r))).setPc (s.pcAfter 2))
  | or (p q : RegIdx) :
      Effect s (.or (regByte p) (regByte q)) ((s.setReg p (aluOr (s.reg p) (s.reg q))).setPc (s.pcAfter 3))
  | xor (p q : RegIdx) :
      Effect s (.xor (regByte p) (regByte q)) ((s.setReg p (aluXor (s.reg p) (s.reg q))).setPc (s.pcAfter 3))
  | cmp (p q : RegIdx) :
      Effect s (.cmp (regByte p) (regByte q)) ((s.setFl (compareFlags (s.reg p) (s.reg q))).setPc (s.pcAfter 3))
  | jmp (r : RegIdx) : Effect s (.jmp (regByte r)) (s.setPc (s.reg r))
  | jne (r : RegIdx) : Effect s (.jne (regByte r)) (s.setPc (if !flagE s.fl then s.reg r else s.pcAfter 2))
  | jeq (r : RegIdx) : Effect s (.jeq (regByte r)) (s.setPc (if flagE s.fl then s.reg r else s.pcAfter 2))

theorem firstBadRegister_second (p : RegIdx) {b : Byte} (h : 7 < b.toNat) :
    [regByte p, b].find? (fun r => decide (7 < r.toNat)) = some b := by
  have hp : ¬ 7 < (regByte p).toNat := by
    have := p.isLt
    rw [regByte_toNat]
    omega
  simp [hp, h]

/-- If an instruction answers a next state, that state is its effect. -/
theorem exec_effect {i : Instr} {s t : State} (h : exec i s = .next t) : Effect s i t := by
  cases i with
  | hlt =>
    cases h
    exact .hlt
  | ret =>
    cases h
    exact .ret
  | ldi a b | prn a | push a | pop a | call a | not a | jmp a | jne a | jeq a =>
    rcases withReg_next h with ⟨r, rfl, rfl⟩ | ⟨h7, rfl⟩
    · first
      | constructor
      | (simp only [State.decSp_sp, State.write_reg]; constructor)
    · exact .badRegister (by simp [Instr.firstBadRegister, Instr.regOperands, h7])
  | add a b | mul a b | and a b | or a b | xor a b | cmp a b =>
    rcases withRegs_next h with ⟨p, q, rfl, rfl, rfl⟩ | ⟨h7, rfl⟩ | ⟨p, rfl, h7, rfl⟩
    · constructor
    · exact .badRegister (by simp [Instr.firstBadRegister, Instr.regOperands, h7])
    · exact .badRegister (firstBadRegister_second p h7)

end Sys2Proof.Machine
end

