-- ==== Sys2Proof/Laws/Step.lean ====
section
/-! SUPPORT. Everything a step can do, said once (spec/30_encoding.md R78, R82). -/

namespace Sys2Proof.Machine

/-- A step that answers a next state stayed Halted, took the IllegalInstruction halt, or executed the instruction of a
row on the bytes at pc. -/
theorem step_cases {s t : State} (h : step s = .next t) :
    (s.runState = .halted ∧ t = s) ∨
    (s.runState = .running ∧ opcodeOfByte (s.read s.pc) = none ∧ t = s.raiseIllegalInstruction (s.read s.pc)) ∨
    (s.runState = .running ∧ ∃ o, s.read s.pc = opcodeByte o ∧
      exec (assemble o (s.read (s.pcAfter 1)) (s.read (s.pcAfter 2))) s = .next t) := by
  unfold step at h
  cases hr : s.runState with
  | halted =>
    rw [hr] at h
    exact .inl ⟨rfl, (Host.Outcome.next.inj h).symm⟩
  | running =>
    rw [hr] at h
    rcases decode_cases (s.read s.pc) (s.read (s.pcAfter 1)) (s.read (s.pcAfter 2)) with ⟨o, ho, hd⟩ | ⟨hn, hd⟩
    · simp only [State.fetchDecoded, hd] at h
      exact .inr (.inr ⟨rfl, o, ho, h⟩)
    · simp only [State.fetchDecoded, hd] at h
      exact .inr (.inl ⟨rfl, hn, (Host.Outcome.next.inj h).symm⟩)

end Sys2Proof.Machine
end

