-- ==== Sys2Proof/Tests/Slice0.lean ====
section
/-! SUPPORT. Tests: expected values are the vectors of spec/95_test_vectors.md (named A1, L1, ST1, CB1, X1 there), the
encodings of R71 and R73, and hand calculation from the rules; then a witness for the hypotheses of each statement. -/

namespace Sys2Proof.Tests

open Sys2Proof Sys2Proof.Machine

/-- The reset state with bytes placed at `p` and pc there. -/
def start (p : Byte) (bytes : List Byte) : State := (State.reset.placeBytes p bytes).setPc p

/-- The state after one step. -/
def after (s : State) : Option State :=
  match step s with
  | .next t => some t
  | .fault _ => none
  | .refused _ => none

/-- After one step, what `f` shows of the state. -/
def seen {α : Type} (f : State → α) (s : State) : Option α := (after s).map f

/-- The run state and the halt record. -/
def stop (s : State) : RunState × HaltCause × Byte × Byte × Byte :=
  (s.runState, s.halt.cause, s.halt.pc, s.halt.opcode, s.halt.operand)

/-! ### WellFormed refuses each ill-formed term -/

theorem test_wf_refuses_op_a_of_one_register_form : (Instr.prn 8).wellFormed = false := by decide
theorem test_wf_refuses_op_a_of_two_register_form : (Instr.add 8 7).wellFormed = false := by decide
theorem test_wf_refuses_op_b_of_two_register_form : (Instr.add 7 8).wellFormed = false := by decide
theorem test_wf_refuses_op_a_of_immediate_form : (Instr.ldi 8 0).wellFormed = false := by decide
theorem test_wf_accepts_any_immediate : (Instr.ldi 7 255).wellFormed = true := by decide

/-! ### Decoding: every row's word written out from R71 and R73 -/

theorem test_decode_hlt : decode 0b00000001 0 0 = .instr .hlt := by decide
theorem test_decode_ldi : decode 0b10000010 0b00000101 0b11111111 = .instr (.ldi 5 255) := by decide
theorem test_decode_prn : decode 0b01000111 0b00000110 0 = .instr (.prn 6) := by decide
theorem test_decode_add : decode 0b10100000 0b00000001 0b00000010 = .instr (.add 1 2) := by decide
theorem test_decode_mul : decode 0b10100010 0b00000001 0b00000010 = .instr (.mul 1 2) := by decide
theorem test_decode_push : decode 0b01000101 0b00000011 0 = .instr (.push 3) := by decide
theorem test_decode_pop : decode 0b01000110 0b00000011 0 = .instr (.pop 3) := by decide
theorem test_decode_call : decode 0b01010000 0b00000100 0 = .instr (.call 4) := by decide
theorem test_decode_ret : decode 0b00010001 0 0 = .instr .ret := by decide
theorem test_decode_and : decode 0b10101000 0b00000001 0b00000010 = .instr (.and 1 2) := by decide
theorem test_decode_not : decode 0b01101001 0b00000111 0 = .instr (.not 7) := by decide
theorem test_decode_or : decode 0b10101010 0b00000001 0b00000010 = .instr (.or 1 2) := by decide
theorem test_decode_xor : decode 0b10101011 0b00000001 0b00000010 = .instr (.xor 1 2) := by decide
theorem test_decode_cmp : decode 0b10100111 0b00000001 0b00000010 = .instr (.cmp 1 2) := by decide
theorem test_decode_jmp : decode 0b01010100 0b00000100 0 = .instr (.jmp 4) := by decide
theorem test_decode_jne : decode 0b01010110 0b00000100 0 = .instr (.jne 4) := by decide
theorem test_decode_jeq : decode 0b01010101 0b00000100 0 = .instr (.jeq 4) := by decide

/-- 0xA1 is SUB in other LS-8 machines and illegal here (R75). -/
theorem test_decode_rejects_sub : decode 0xA1 0 1 = .illegalInstruction 0xA1 := by decide
theorem test_decode_rejects_zero : decode 0x00 0 0 = .illegalInstruction 0x00 := by decide

/-- LDI R5,255 as the opcode table numbers its 24 bits. -/
theorem test_table_word_ldi : decodeTableWord 24 0xFF0582 = some (.ldi 5 255) := by decide
/-- Bits above nbits are zero. -/
theorem test_table_word_short : decodeTableWord 8 0xFF0582 = some (.ldi 0 0) := by decide
/-- The host's word runs as the next step, from a halted state too. -/
theorem test_with_fetch_word :
    seen (fun t => (t.reg 5, t.pc)) ((State.reset.haltWith ⟨.hlt, 0, 1, 0⟩).withFetchWord 24 0xFF0582) =
      some (0xFF, 0x03) := by decide

/-- R83's own example spelling. -/
theorem test_asm_ldi : asmText (.ldi 0 8) = some "LDI R0,8" := by decide
theorem test_asm_needs_a_register : asmText (.ldi 8 5) = none := by decide

/-! ### One step each (spec/95_test_vectors.md section 2) -/

theorem test_add_A2 :
    seen (fun t => (t.reg 0, t.pc)) (((start 0 [0xA0, 0, 1]).setReg 0 0xC8).setReg 1 0x64) = some (0x2C, 0x03) := by
  decide
theorem test_add_A7 : seen stop (start 0 [0xA0, 9, 8]) = some (.halted, .invalidRegister, 0x00, 0xA0, 0x09) := by decide
theorem test_mul_A10 :
    seen (fun t => (t.reg 0, t.pc)) (((start 0 [0xA2, 0, 1]).setReg 0 0xFF).setReg 1 0xFF) = some (0x01, 0x03) := by
  decide
theorem test_mul_A11 : seen (·.reg 0) (((start 0 [0xA2, 0, 1]).setReg 0 0x0F).setReg 1 0x11) = some 0xFF := by decide
theorem test_and_A13 : seen (·.reg 0) (((start 0 [0xA8, 0, 1]).setReg 0 0xF0).setReg 1 0x3C) = some 0x30 := by decide
theorem test_or_A15 : seen (·.reg 2) (((start 0 [0xAA, 2, 1]).setReg 2 0x30).setReg 1 0x3C) = some 0x3C := by decide
theorem test_xor_A17 : seen (·.reg 3) (((start 0 [0xAB, 3, 1]).setReg 3 0xF0).setReg 1 0x3C) = some 0xCC := by decide
theorem test_not_A19 : seen (fun t => (t.reg 3, t.pc)) ((start 0 [0x69, 3]).setReg 3 0xCC) = some (0x33, 0x02) := by
  decide
theorem test_not_A22 : seen (·.sp) (start 0 [0x69, 7]) = some 0x0B := by decide
theorem test_ldi_L5 : seen (fun t => (t.reg 3, t.pc)) (start 0xFE [0x82, 3, 0x77]) = some (0x77, 0x01) := by decide
theorem test_ldi_L4 : seen stop (start 0 [0x82, 8, 5]) = some (.halted, .invalidRegister, 0x00, 0x82, 0x08) := by decide
theorem test_prn_L7 : seen (fun t => (t.out, t.pc)) (start 0 [0x47, 7]) = some ([244], 0x02) := by decide
theorem test_prn_L8 :
    seen (fun t => (stop t, t.out, t.pc)) (start 0 [0x47, 0xFF]) =
      some ((.halted, .invalidRegister, 0x00, 0x47, 0xFF), [], 0x00) := by decide
theorem test_hlt_L9 :
    seen (fun t => (stop t, t.pc)) (start 5 [0x01]) = some ((.halted, .hlt, 0x05, 0x01, 0x00), 0x06) := by decide
theorem test_hlt_L10 : seen (·.pc) (start 0xFF [0x01]) = some 0x00 := by decide
theorem test_push_ST2 : seen (fun t => (t.sp, t.read 0xF3, t.pc)) (start 0x10 [0x45, 7]) = some (0xF3, 0xF3, 0x12) := by
  decide
theorem test_push_ST3 :
    seen (fun t => (t.sp, t.read 0xFF)) (((start 0x10 [0x45, 1]).setReg 1 0x99).setSp 0x00) = some (0xFF, 0x99) := by
  decide
theorem test_pop_ST5 : seen (·.sp) (((start 0x10 [0x46, 7]).setSp 0xF3).write 0xF3 0x20) = some 0x21 := by decide
theorem test_pop_ST6 :
    seen (fun t => (t.reg 1, t.sp, t.pc)) (((start 0x10 [0x46, 1]).setSp 0xFF).write 0xFF 0x44) =
      some (0x44, 0x00, 0x12) := by decide
theorem test_call_ST9 : seen (fun t => (t.sp, t.read 0xF3, t.pc)) (start 0x10 [0x50, 7]) = some (0xF3, 0x12, 0xF3) := by
  decide
theorem test_call_ST10 :
    seen (fun t => (t.read 0xF3, t.pc)) ((start 0xFE [0x50, 1]).setReg 1 0x40) = some (0x00, 0x40) := by decide
theorem test_ret_ST11 :
    seen (fun t => (t.sp, t.pc)) (((start 0x10 [0x11]).setSp 0xF3).write 0xF3 0x12) = some (0xF4, 0x12) := by decide
theorem test_ret_ST12 : seen (fun t => (t.sp, t.pc)) (start 0x10 [0x11]) = some (0xF5, 0x00) := by decide
theorem test_cmp_CB5 :
    seen (fun t => (t.fl, t.pc)) (((start 0x20 [0xA7, 0, 1]).setReg 0 0x80).setReg 1 0x7F) = some (0b010, 0x23) := by
  decide
theorem test_cmp_CB6 : seen (·.fl) ((start 0x20 [0xA7, 0, 1]).setReg 1 0xFF) = some 0b100 := by decide
theorem test_jmp_CB10 : seen (·.pc) (start 0x20 [0x54, 7]) = some 0xF4 := by decide
theorem test_jeq_CB13 : seen (·.pc) ((start 0x20 [0x55, 3]).setReg 3 0x30) = some 0x22 := by decide
theorem test_jeq_CB17 :
    seen stop ((start 0x20 [0x55, 9]).setFl 0b100) = some (.halted, .invalidRegister, 0x20, 0x55, 0x09) := by decide
theorem test_jne_CB15 : seen (·.pc) ((start 0x20 [0x56, 3]).setReg 3 0x0C) = some 0x0C := by decide
theorem test_jne_CB16 : seen (·.pc) (((start 0x20 [0x56, 3]).setReg 3 0x0C).setFl 0b001) = some 0x22 := by decide
theorem test_illegal_X2 :
    seen (fun t => (stop t, t.pc)) (start 0x20 [0xA1, 0, 1]) =
      some ((.halted, .illegalInstruction, 0x20, 0xA1, 0x00), 0x20) := by decide
theorem test_halted_X5 :
    after ((start 0 [0x82, 0, 8]).haltWith ⟨.hlt, 0, 1, 0⟩) = some ((start 0 [0x82, 0, 8]).haltWith ⟨.hlt, 0, 1, 0⟩) := by
  decide
/-- The codes of R31. -/
theorem test_halt_cause_codes :
    [HaltCause.none, .hlt, .illegalInstruction, .invalidRegister].map haltCauseCode = [0, 1, 2, 3] := by decide
/-- Writing an unwritten cell's byte unlists it, so equal memories are equal data. -/
theorem test_memory_canonical :
    (((Memory.write [] 9 7).write 3 5).write 9 0) = [(3, 5)] := by decide

/-! ### Witnesses: the hypotheses of each statement hold together somewhere -/

theorem witness_DecodedBytesAreTheEncoding : decode 0xA0 7 8 = .instr (.add 7 8) ∧ instrLength (.add 7 8) = 3 := by
  decide
theorem witness_DecodedBytes_shorter_lengths :
    instrLength (.prn 7) = 2 ∧ decode 0x47 7 0 = .instr (.prn 7) ∧ instrLength .hlt = 1 ∧ decode 1 0 0 = .instr .hlt := by
  decide
theorem witness_EncodedInstructionIsFetchedBack :
    State.reset.runState = .running ∧ (start 0xFF (encode (.ldi 7 9))).fetchDecoded = .instr (.ldi 7 9) := by decide
theorem witness_StepRunsDecodedInstruction :
    (start 0xFE [0xA0, 7, 8]).runState = .running ∧ (start 0xFE [0xA0, 7, 8]).fetchDecoded = .instr (.add 7 8) ∧
      (start 0 [0xFF]).fetchDecoded = .illegalInstruction 0xFF := by decide
/-- The operand bytes on both sides of the range's end, for the forms with one and two registers. -/
theorem witness_register_operand_range :
    (regByte 7).toNat = 7 ∧ 7 < (8 : Byte).toNat ∧ operandReg 7 = some 7 ∧ operandReg 8 = none ∧
      operandReg 255 = none := by decide
/-- The three outcomes of a compare, each with its condition met. -/
theorem witness_CmpSetsExactlyOneFlag :
    (0x7F : Byte).toNat < (0x80 : Byte).toNat ∧ compareFlags 0x80 0x7F = 0b010 ∧ compareFlags 0x7F 0x80 = 0b100 ∧
      compareFlags 0xFF 0xFF = 0b001 := by decide
/-- Both branch conditions are met by some FL, for JEQ and for JNE. -/
theorem witness_BranchRule :
    (0b001 : Flags).getLsbD 0 = true ∧ (0b110 : Flags).getLsbD 0 = false ∧
      seen (·.pc) (((start 0x20 [0x55, 3]).setReg 3 0x30).setFl 0b001) = some 0x30 := by decide
/-- POP into R7 and into another register. -/
theorem witness_PopLoadsFromTheStackPointer : (6 : RegIdx) ≠ 7 ∧ seen (·.reg 6) (start 0 [0x46, 6]) = some 0x00 := by
  decide
theorem witness_IllegalByteHaltsPrecisely :
    (start 0x20 [0x02]).runState = .running ∧ isIllegalByte ((start 0x20 [0x02]).read 0x20) = true ∧
      isIllegalByte 0x01 = false ∧ isIllegalByte 0xAC = true ∧ isIllegalByte 0xAB = false := by decide
/-- Both ends of each illegal range of R75, and the 17 opcode bytes of R73, which lie in none. -/
theorem witness_illegal_ranges :
    ([0x00, 0x02, 0x10, 0x12, 0x44, 0x48, 0x4F, 0x51, 0x53, 0x57, 0x68, 0x6A, 0x81, 0x83, 0x9F, 0xA1, 0xA3, 0xA6, 0xA9,
      0xAC, 0xFF] : List Byte).all isIllegalByte = true ∧
    ([0x01, 0x82, 0x47, 0xA0, 0xA2, 0x45, 0x46, 0x50, 0x11, 0xA8, 0x69, 0xAA, 0xAB, 0xA7, 0x54, 0x56, 0x55] :
      List Byte).any isIllegalByte = false := by decide
theorem witness_BadRegisterOperandHaltsPrecisely :
    (Instr.add 7 8).firstBadRegister = some 8 ∧ (Instr.add 9 8).firstBadRegister = some 9 ∧
      (Instr.add 7 7).firstBadRegister = none := by decide
theorem witness_FaultChangesOnlyTheHaltRecord :
    ∃ t, (start 0x20 [0xA1]).runState = .running ∧ step (start 0x20 [0xA1]) = .next t ∧ t.runState = .halted ∧
      ¬ HaltedNormally t :=
  ⟨_, rfl, rfl, rfl, fun h => nomatch h.2⟩
/-- The three ways a run ends, each taken. -/
theorem witness_RunEndsExactlyOnHltOrFault :
    (start 0 [0x01]).fetchDecoded = .instr .hlt ∧ isIllegalByte ((start 0 [0x00]).read 0) = true ∧
      (start 0 [0x47, 8]).fetchDecoded = .instr (.prn 8) ∧ (Instr.prn 8).wellFormed = false ∧
      (State.reset.haltWith ⟨.hlt, 0, 1, 0⟩).runState = .halted := by decide
/-- Both clauses of the pc rule: an instruction that sets pc and one that does not. -/
theorem witness_NextPcIsLengthOrTarget :
    (Instr.call 7).wellFormed = true ∧ setsPc State.reset (.call 7) = true ∧ setsPc State.reset .ret = true ∧
      setsPc State.reset (.jne 7) = true ∧ setsPc State.reset (.jeq 7) = false ∧ (Instr.jeq 7).wellFormed = true := by
  decide
theorem witness_OnlyCmpWritesFlags :
    ∃ t, exec (.cmp 0 0) (start 0 [0xA7, 0, 0]) = .next t ∧ step (start 0 [0xA7, 0, 0]) = .next t ∧
      t.fl ≠ (start 0 [0xA7, 0, 0]).fl :=
  ⟨_, rfl, rfl, by decide⟩
theorem witness_OnlyPrnEmitsOutput :
    ∃ t, step (start 0 [0x47, 7]) = .next t ∧ (start 0 [0x47, 7]).runState = .running ∧
      (start 0 [0x47, 7]).fetchDecoded = .instr (.prn (regByte 7)) :=
  ⟨_, rfl, rfl, by decide⟩
/-- The clause of a step that is no PRN of a register: a PRN of operand 8, which halts. -/
theorem witness_OnlyPrnEmitsOutput_no_event :
    ∃ t, step (start 0 [0x47, 8]) = .next t ∧ ∀ a : RegIdx, (start 0 [0x47, 8]).fetchDecoded ≠ .instr (.prn (regByte a)) :=
  ⟨_, rfl, by decide⟩
theorem witness_OnlyPushAndCallStore : ∃ t, exec (.push 7) State.reset = .next t ∧ t.read 0xF3 ≠ State.reset.read 0xF3 :=
  ⟨_, rfl, by decide⟩
theorem witness_RegisterWritesFollowTheTable : ∃ t, exec (.not 7) State.reset = .next t ∧ t.reg 7 ≠ State.reset.reg 7 :=
  ⟨_, rfl, by decide⟩
theorem witness_HaltRecordAndOutputAreNeverRead :
    ∃ t, State.reset.runState = .running ∧ step State.reset = .next t ∧ t.runState = .halted :=
  ⟨_, rfl, rfl, by decide⟩
/-- The clause of a step that does not halt. -/
theorem witness_HaltRecordAndOutputAreNeverRead_running :
    ∃ t, step (start 0 [0x47, 7]) = .next t ∧ t.runState = .running := ⟨_, rfl, by decide⟩
theorem witness_GreaterAndLessAreNeverRead :
    ∃ t, (0b110 : Flags).getLsbD 0 = State.reset.fl.getLsbD 0 ∧ step State.reset = .next t :=
  ⟨_, by decide, rfl⟩
/-- Images of the greatest length and of one byte more. -/
theorem witness_LaunchPlacesTheImage :
    (List.replicate 256 (0x01 : Byte)).length ≤ 256 ∧ 256 < (List.replicate 257 (0x01 : Byte)).length := by
  rw [List.length_replicate, List.length_replicate]
  omega
theorem witness_LaunchMeetsTheInvariant : ∃ s, launch [0x82, 0x00, 0x08] = some s ∧ s.mem = [(0, 0x82), (2, 0x08)] :=
  ⟨_, rfl, by decide⟩
/-- A state that is not the reset state, with listed memory, a flag and a step to take, meets the invariant. -/
theorem witness_StepKeepsTheInvariant :
    Inv ((start 0x20 [0x45, 7]).setFl 0b100) ∧ ∃ t, step ((start 0x20 [0x45, 7]).setFl 0b100) = .next t :=
  ⟨⟨by decide, by decide, rfl⟩, _, rfl⟩
theorem witness_EveryRunKeepsTheInvariant : ∃ t, core.run 2 ((start 0x20 [0x45, 7]).setFl 0b100) = .next t := ⟨_, rfl⟩
theorem witness_CanonicalMemoriesReadingAlikeAreEqual :
    Memory.wf [(3, 5), (255, 9)] ∧ Memory.wf ((Memory.write [] 255 9).write 3 5) := by decide
theorem witness_PushThenPopMovesTheRegister : (6 : RegIdx) ≠ 7 ∧ (0 : RegIdx) ≠ 7 := by decide
theorem witness_CallThenReturnResumesAfterTheCall :
    ∃ t, exec (.call 7) State.reset = .next t ∧ t.sp = 0xF3 ∧ (t.setPc 0x40).sp = t.sp ∧
      (t.setPc 0x40).read t.sp = t.read t.sp :=
  ⟨_, rfl, by decide, rfl, rfl⟩
theorem witness_CompareDecidesTheBranch :
    State.reset.reg 0 = State.reset.reg 1 ∧ State.reset.reg 0 ≠ State.reset.reg 7 := by decide
theorem witness_ComplementAndAddSubtracts :
    (0 : RegIdx) ≠ 1 ∧ (2 : RegIdx) ≠ 1 ∧ (State.reset.setReg 2 0x01).reg 2 = 0x01 := by decide
theorem witness_PushOverItsOperandUsesTheFetchedByte :
    let s := (start 0x20 [0x45, 3]).setSp 0x22
    s.runState = .running ∧ (3 : RegIdx) ≠ 7 ∧ s.read s.pc = 0x45 ∧ s.read (u8 (s.pc.toNat + 1)) = regByte 3 ∧
      s.pushAddr = u8 (s.pc.toNat + 1) := by decide
theorem witness_AluContractOfSubAndDiv : aluDiv 7 0 = none ∧ aluDiv 7 2 = some 3 ∧ aluSub 1 2 = 0xFF := by decide

end Sys2Proof.Tests
end

/-! Which bytes the decoder rejects (R75) and what a Running step does at one of them (R203). -/

namespace Sys2Proof.Machine

theorem isIllegalByte_opcodeByte (o : Opcode) : isIllegalByte (opcodeByte o) = false := by
  cases o <;> decide

/-- The gaps between R75's ranges hold the bytes of the dispatcher's rows alone. -/
theorem exists_opcodeByte_of_isIllegalByte_eq_false {op : Byte} (h : isIllegalByte op = false) :
    ∃ o ∈ allOpcodes, opcodeByte o = op := by
  simp only [allOpcodes, List.mem_cons, List.not_mem_nil, or_false, exists_eq_or_imp, exists_eq_left, opcodeByte,
    BitVec.toNat_eq]
  simp only [isIllegalByte, Bool.or_eq_false_iff, beq_eq_false_iff_ne, ne_eq, Bool.and_eq_false_imp,
    decide_eq_true_eq, decide_eq_false_iff_not, not_le, BitVec.ofNat_eq_ofNat, BitVec.toNat_ofNat, Nat.reducePow,
    Nat.one_mod, Nat.reduceMod] at h ⊢
  omega

/-- R75's ranges are exactly the bytes the dispatcher's lookup rejects. -/
theorem opcodeOfByte_eq_none_iff {op : Byte} : opcodeOfByte op = none ↔ isIllegalByte op = true := by
  constructor
  · intro hnone
    by_contra hlegal
    obtain ⟨o, -, rfl⟩ := exists_opcodeByte_of_isIllegalByte_eq_false (Bool.eq_false_of_not_eq_true hlegal)
    simp [opcodeOfByte_opcodeByte] at hnone
  · intro hill
    cases ho : opcodeOfByte op with
    | none => rfl
    | some o => simp [opcodeOfByte_eq_some_iff.1 ho, isIllegalByte_opcodeByte] at hill

theorem decode_of_isIllegalByte {op : Byte} (h : isIllegalByte op = true) (a b : Byte) :
    decode op a b = .illegalInstruction op := by
  simp [decode, opcodeOfByte_eq_none_iff.2 h]

theorem decode_of_isIllegalByte_eq_false {op : Byte} (h : isIllegalByte op = false) (a b : Byte) :
    ∃ i, decode op a b = .instr i := by
  rcases decode_cases op a b with ⟨o, -, hd⟩ | ⟨hnone, -⟩
  · exact ⟨assemble o a b, hd⟩
  · simp [opcodeOfByte_eq_none_iff.1 hnone] at h

/-- The bytes outside R75's ranges are the rows' bytes, each once. -/
theorem legal_bytes_perm_opcodeBytes :
    ((List.range 256).filter fun n => !isIllegalByte (u8 n)).Perm (allOpcodes.map fun o => (opcodeByte o).toNat) := by
  have hnodup : (allOpcodes.map fun o => (opcodeByte o).toNat).Nodup := by decide
  refine (List.perm_ext_iff_of_nodup (List.nodup_range.filter _) hnodup).2 fun n => ?_
  simp only [List.mem_filter, List.mem_range, List.mem_map, Bool.not_eq_true']
  constructor
  · rintro ⟨hn, hlegal⟩
    obtain ⟨o, ho, hop⟩ := exists_opcodeByte_of_isIllegalByte_eq_false hlegal
    exact ⟨o, ho, by rw [hop, u8, BitVec.toNat_ofNat, Nat.mod_eq_of_lt hn]⟩
  · rintro ⟨o, -, rfl⟩
    exact ⟨(opcodeByte o).isLt, by rw [u8, BitVec.ofNat_toNat, BitVec.setWidth_eq, isIllegalByte_opcodeByte]⟩

/-- R75's count: the 256 bytes less the 17 rows of R73. -/
theorem length_illegal_bytes : ((List.range 256).filter fun n => isIllegalByte (u8 n)).length = 239 := by
  have hsplit := List.length_eq_length_filter_add (l := List.range 256) fun n => isIllegalByte (u8 n)
  have hlegal := legal_bytes_perm_opcodeBytes.length_eq
  rw [List.length_map, show allOpcodes.length = 17 from rfl] at hlegal
  rw [List.length_range] at hsplit
  omega

/-- The record of R203 over the frame of R207. -/
theorem State.raiseIllegalInstruction_eq_haltedBy (s : State) (op : Byte) :
    s.raiseIllegalInstruction op = haltedBy .illegalInstruction s op 0x00 := rfl

theorem step_of_isIllegalByte {s : State} (hrun : s.runState = .running) (hill : isIllegalByte (s.read s.pc) = true) :
    step s = .next (haltedBy .illegalInstruction s (s.read s.pc) 0x00) := by
  have hfetch : s.fetchDecoded = .illegalInstruction (s.read s.pc) := decode_of_isIllegalByte hill _ _
  simp only [step, hrun, hfetch, State.raiseIllegalInstruction_eq_haltedBy]

/-- Settles O24: the count and the exact set of R75 from the dispatcher's rows, R203's halt from the decoder's answer. -/
theorem illegalByteHaltsPrecisely : Obligations.IllegalByteHaltsPrecisely :=
  ⟨length_illegal_bytes,
    fun _ a b => ⟨fun h => decode_of_isIllegalByte h a b, fun h => decode_of_isIllegalByte_eq_false h a b⟩,
    fun _ hrun hill => step_of_isIllegalByte hrun hill⟩

end Sys2Proof.Machine

/-! What the rows of a format share (their bytes, the register halt of R204 and R206, the frame of a register write), and
from it the two-register ALU instructions (R101-R104, R106, R107). -/

namespace Sys2Proof

theorem u8_toNat (n : Nat) : (u8 n).toNat = n % 256 := BitVec.toNat_ofNat n 8

theorem encode_assemble_of_length_three {o : Opcode} (h : formatLength (opcodeFormat o) = 3) (a b : Byte) :
    encode (assemble o a b) = [opcodeByte o, a, b] := by
  cases o with
  | ldi | add | mul | and | or | xor | cmp => rfl
  | hlt | prn | push | pop | call | ret | not | jmp | jne | jeq => cases h

end Sys2Proof

namespace Sys2Proof.Machine

/-! ### The bytes and the register halt of a row -/

theorem threeByteEncoding_assemble {o : Opcode} (h : formatLength (opcodeFormat o) = 3) :
    ThreeByteEncoding (opcodeByte o) (assemble o) :=
  fun a b => ⟨decode_opcodeByte o a b, encode_assemble_of_length_three h a b⟩

/-- The record of R204 over the frame of R207. -/
theorem State.raiseInvalidRegister_eq_haltedBy (s : State) (op r : Byte) :
    s.raiseInvalidRegister op r = haltedBy .invalidRegister s op r := rfl

/-- An instruction of the two-register form checks op_a before op_b (R206), whatever its effect is. -/
theorem rejectsBadRegisters_of_exec_eq_withRegs {o : Opcode} {mk : Byte → Byte → Instr}
    {k : State → RegIdx → RegIdx → State} (h : ∀ a b s, exec (mk a b) s = withRegs o a b s (k s)) :
    RejectsBadRegisters (opcodeByte o) mk := by
  refine fun s a b => ⟨fun ha => ?_, fun ha hb => ?_⟩
  · rw [h, withRegs_bad_first o b ha, State.raiseInvalidRegister_eq_haltedBy]
  · obtain ⟨p, rfl⟩ := (operand_cases a).resolve_right (Nat.not_lt.2 ha)
    rw [h, withRegs_bad_second o p hb, State.raiseInvalidRegister_eq_haltedBy]

/-! ### What a register write and the advance of pc leave -/

theorem advancesBy_setPc_pcAfter (s t : State) (n : Nat) : AdvancesBy n s (t.setPc (s.pcAfter n)) :=
  offset_toNat s.pc n

theorem frame_setReg_setPc (s : State) (r : RegIdx) (v p : Byte) : Frame [r] [] s ((s.setReg r v).setPc p) := by
  refine ⟨fun q hq => ?_, fun _ _ => rfl, rfl, rfl⟩
  exact State.setReg_reg_other s v (Ne.symm (List.ne_of_not_mem_cons hq))

/-! ### The ALU on the values of its operands (R100) -/

theorem aluAdd_toNat (p q : Byte) : (aluAdd p q).toNat = (p.toNat + q.toNat) % 256 := u8_toNat _
theorem aluMul_toNat (p q : Byte) : (aluMul p q).toNat = (p.toNat * q.toNat) % 256 := u8_toNat _
theorem aluAnd_toNat (p q : Byte) : (aluAnd p q).toNat = p.toNat &&& q.toNat := BitVec.toNat_and p q
theorem aluOr_toNat (p q : Byte) : (aluOr p q).toNat = p.toNat ||| q.toNat := BitVec.toNat_or p q
theorem aluXor_toNat (p q : Byte) : (aluXor p q).toNat = p.toNat ^^^ q.toNat := BitVec.toNat_xor p q

/-! ### The two-register ALU instructions -/

theorem aluPair_regByte (o : Opcode) (g : Byte → Byte → Byte) (a b : RegIdx) (s : State) :
    aluPair o g (regByte a) (regByte b) s =
      .next ((s.setReg a (g (s.reg a) (s.reg b))).setPc (s.pcAfter 3)) :=
  withRegs_regByte o a b s _

/-- A three-byte row that runs `aluPair` with `g` keeps the whole rule of R101 for the function `g` is on naturals. -/
theorem aluPairRule_of_exec_eq_aluPair {o : Opcode} {f : Nat → Nat → Nat} {g : Byte → Byte → Byte}
    (hlen : formatLength (opcodeFormat o) = 3) (hexec : ∀ a b s, exec (assemble o a b) s = aluPair o g a b s)
    (hval : ∀ p q, (g p q).toNat = f p.toNat q.toNat) : AluPairRule (opcodeByte o) (assemble o) f := by
  refine ⟨threeByteEncoding_assemble hlen, fun s a b => ?_, rejectsBadRegisters_of_exec_eq_withRegs hexec⟩
  refine ⟨_, (hexec _ _ s).trans (aluPair_regByte o g a b s), ?_, advancesBy_setPc_pcAfter s _ 3, ⟨rfl, rfl⟩,
    frame_setReg_setPc s a _ _⟩
  rw [State.setPc_reg, State.setReg_reg_same, hval]

/-- Settles O7: the rule of `aluPair` at the row of ADD, whose arm is `aluPair` and whose function is the sum. -/
theorem addWritesSumModulo256 : Obligations.AddWritesSumModulo256 :=
  aluPairRule_of_exec_eq_aluPair (o := .add) rfl (fun _ _ _ => rfl) aluAdd_toNat

/-- Settles O8: the rule of `aluPair` at the row of MUL, whose arm is `aluPair` and whose function is the product. -/
theorem mulWritesLowByteOfProduct : Obligations.MulWritesLowByteOfProduct :=
  aluPairRule_of_exec_eq_aluPair (o := .mul) rfl (fun _ _ _ => rfl) aluMul_toNat

/-- Settles O9: the rule of `aluPair` at the row of AND, whose arm is `aluPair` and whose function is `&&&`. -/
theorem andWritesBitwiseAnd : Obligations.AndWritesBitwiseAnd :=
  aluPairRule_of_exec_eq_aluPair (o := .and) rfl (fun _ _ _ => rfl) aluAnd_toNat

/-- Settles O10: the rule of `aluPair` at the row of OR, whose arm is `aluPair` and whose function is `|||`. -/
theorem orWritesBitwiseOr : Obligations.OrWritesBitwiseOr :=
  aluPairRule_of_exec_eq_aluPair (o := .or) rfl (fun _ _ _ => rfl) aluOr_toNat

/-- Settles O11: the rule of `aluPair` at the row of XOR, whose arm is `aluPair` and whose function is `^^^`. -/
theorem xorWritesBitwiseXor : Obligations.XorWritesBitwiseXor :=
  aluPairRule_of_exec_eq_aluPair (o := .xor) rfl (fun _ _ _ => rfl) aluXor_toNat

end Sys2Proof.Machine

/-! The register halt of the one-register form (R204), load-immediate and output (R131, R132), and which steps emit an
output event (R134). -/

namespace Sys2Proof.Machine

/-! ### The rows of LDI and PRN -/

/-- An instruction of the one-register form checks op_a (R204), whatever its effect is. -/
theorem rejectsBadRegister_of_exec_eq_withReg {o : Opcode} {mk : Byte → Instr} {k : State → RegIdx → State}
    (h : ∀ a s, exec (mk a) s = withReg o a s (k s)) : RejectsBadRegister (opcodeByte o) mk :=
  fun s a ha => by rw [h, withReg_bad o ha, State.raiseInvalidRegister_eq_haltedBy]

theorem exec_ldi_regByte (a : RegIdx) (imm : Byte) (s : State) :
    exec (.ldi (regByte a) imm) s = .next ((s.setReg a imm).setPc (s.pcAfter 3)) :=
  withReg_regByte .ldi a s _

theorem exec_prn_regByte (a : RegIdx) (s : State) :
    exec (.prn (regByte a)) s = .next ((s.emit (s.reg a)).setPc (s.pcAfter 2)) :=
  withReg_regByte .prn a s _

/-- Settles O14: the bytes of a three-byte row, the frame of a register write, and the check of op_a, which is the same
for every immediate. -/
theorem ldiWritesTheImmediate : Obligations.LdiWritesTheImmediate := by
  refine ⟨threeByteEncoding_assemble (o := .ldi) rfl, fun s a imm => ?_, fun s a imm ha => ?_⟩
  · refine ⟨_, exec_ldi_regByte a imm s, ?_, advancesBy_setPc_pcAfter s _ 3, ⟨rfl, rfl⟩, frame_setReg_setPc s a imm _⟩
    rw [State.setPc_reg, State.setReg_reg_same]
  · exact rejectsBadRegister_of_exec_eq_withReg (o := .ldi) (mk := (.ldi · imm)) (fun _ _ => rfl) s a ha

/-! ### Output events -/

theorem step_of_fetchDecoded_eq_instr {s : State} {i : Instr} (hrun : s.runState = .running)
    (hfetch : s.fetchDecoded = .instr i) : step s = exec i s := by
  simp only [step, hrun, hfetch]

/-- Of all the effects only that of a PRN of a register emits; a bad operand's halt, PRN's among them, does not. -/
theorem Effect.out_eq_of_ne_prn {s t : State} {i : Instr} (he : Effect s i t) (hi : ∀ a, i ≠ .prn (regByte a)) :
    t.out = s.out := by
  cases he with
  | prn r => exact absurd rfl (hi r)
  | badRegister _ | hlt | ldi | add | mul | push | pop | call | ret | and | not | or | xor | cmp | jmp | jne | jeq => rfl

/-- Settles O31: at a PRN the step is that instruction's effect; otherwise it stays Halted, takes the IllegalInstruction
halt, or has the effect of an instruction that emits nothing. -/
theorem onlyPrnEmitsOutput : Obligations.OnlyPrnEmitsOutput := by
  refine fun s t hstep => ⟨fun a hrun hfetch => ?_, fun hno => ?_⟩
  · rw [step_of_fetchDecoded_eq_instr hrun hfetch, exec_prn_regByte] at hstep
    obtain rfl := Host.Outcome.next.inj hstep
    rw [State.setPc_out, State.emit_out]
  · rcases step_cases hstep with ⟨-, rfl⟩ | ⟨-, -, rfl⟩ | ⟨hrun, o, ho, hexec⟩
    · rfl
    · rfl
    · refine (exec_effect hexec).out_eq_of_ne_prn fun a hi => hno a ⟨hrun, ?_⟩
      rw [State.fetchDecoded, ho, decode_opcodeByte, hi]

end Sys2Proof.Machine

/-! What an increment of SP leaves, and from it RET (R154). -/

namespace Sys2Proof.Machine

theorem State.spAfterPop_toNat (s : State) : s.spAfterPop.toNat = (s.sp.toNat + 1) % 256 := offset_toNat s.sp 1

theorem frame_incSp_setPc (s : State) (p : Byte) : Frame [7] [] s (s.incSp.setPc p) :=
  frame_setReg_setPc s 7 s.spAfterPop p

theorem exec_ret (s : State) : exec .ret s = .next (s.incSp.setPc (s.read s.sp)) := rfl

/-- Settles O19: the row's one byte, and the pop's three effects read off the state RET answers: the pc set to the byte
at the old SP, the incremented SP, and the frame of that increment. -/
theorem retPopsThePc : Obligations.RetPopsThePc := by
  refine ⟨decode_opcodeByte .ret, rfl, fun s => ⟨_, exec_ret s, State.setPc_pc _ _, ?_, ⟨rfl, rfl⟩,
    frame_incSp_setPc s _⟩⟩
  rw [State.setPc_sp, State.incSp_sp, State.spAfterPop_toNat]

end Sys2Proof.Machine

/-! What a write of pc alone leaves, and from it JMP (R172). -/

namespace Sys2Proof.Machine

theorem frame_setPc (s : State) (p : Byte) : Frame [] [] s (s.setPc p) :=
  ⟨fun r _ => State.setPc_reg s p r, fun x _ => State.setPc_read s p x, rfl, rfl⟩

theorem exec_jmp_regByte (a : RegIdx) (s : State) : exec (.jmp (regByte a)) s = .next (s.setPc (s.reg a)) :=
  withReg_regByte .jmp a s _

/-- Settles O21: the row's two bytes, the write of pc that JMP answers whatever FL is, with nothing else in its frame, and
the check of op_a. The untaken clause asks nothing, since a jump's condition always holds. -/
theorem jmpTakesTheRegister : Obligations.JmpTakesTheRegister := by
  refine ⟨fun a b => ⟨decode_opcodeByte .jmp a b, rfl⟩, fun s a => ?_,
    rejectsBadRegister_of_exec_eq_withReg (o := .jmp) fun _ _ => rfl⟩
  exact ⟨_, exec_jmp_regByte a s, fun _ => State.setPc_pc s _, fun huntaken => absurd trivial huntaken, ⟨rfl, rfl⟩,
    frame_setPc s _⟩

end Sys2Proof.Machine

/-! An instruction and its bytes, both ways, and fetching bytes placed anywhere in memory (R27, R70-R75). -/

namespace Sys2Proof

theorem length_encode (i : Instr) : (encode i).length = instrLength i := by
  cases i <;> rfl

theorem formatLength_le (f : Format) : formatLength f ≤ 3 := by
  cases f <;> decide

/-- Decoding is the inverse of encoding: the bytes decode to the one instruction whose encoding they begin with. -/
theorem decode_eq_instr_iff {op a b : Byte} {i : Instr} :
    decode op a b = .instr i ↔ encode i = [op, a, b].take (instrLength i) := by
  constructor
  · intro h
    rcases decode_cases op a b with ⟨o, rfl, hd⟩ | ⟨-, hd⟩
    · obtain rfl := Decoded.instr.inj (hd.symm.trans h)
      cases o <;> rfl
    · cases hd.symm.trans h
  · intro h
    cases i with
    | hlt | ldi | prn | add | mul | push | pop | call | ret | and | not | or | xor | cmp | jmp | jne | jeq =>
      cases h
      exact decode_opcodeByte _ _ _

/-- Settles O4: the bytes are the instruction's encoding, and the bytes that replace those past its length leave the same
first bytes, which decode to the same instruction. -/
theorem decodedBytesAreTheEncoding : Obligations.DecodedBytesAreTheEncoding := by
  intro op a b i h
  have henc := decode_eq_instr_iff.1 h
  refine ⟨henc, length_encode i, fun hlen b' => ?_, fun hlen a' b' => ?_⟩
  · rw [decode_eq_instr_iff, henc]
    exact (List.take_append_of_le_length (l₁ := [op, a]) hlen).trans
      (List.take_append_of_le_length (l₁ := [op, a]) hlen).symm
  · rw [decode_eq_instr_iff, henc, hlen]
    rfl

end Sys2Proof

namespace Sys2Proof.Machine

/-! ### Addresses after an address -/

@[simp] theorem offset_zero (a : Byte) : offset a 0 = a := by
  simp [offset, u8]

theorem offset_offset (a : Byte) (m n : Nat) : offset (offset a m) n = offset a (m + n) := by
  apply BitVec.eq_of_toNat_eq
  simp only [offset_toNat]
  omega

theorem offset_ne_self (a : Byte) {n : Nat} (hpos : 0 < n) (hlt : n < 256) : offset a n ≠ a := by
  intro h
  have hval := offset_toNat a n
  rw [h] at hval
  have := a.isLt
  omega

/-! ### What placed bytes read as -/

theorem State.placeBytes_read_outside {s : State} {a x : Byte} {bs : List Byte}
    (h : ∀ k < bs.length, offset a k ≠ x) : (s.placeBytes a bs).read x = s.read x := by
  induction bs generalizing s a with
  | nil => rfl
  | cons b bs ih =>
    have htail : ∀ k < bs.length, offset (offset a 1) k ≠ x := fun k hk => by
      rw [offset_offset, Nat.add_comm]
      exact h (k + 1) (Nat.succ_lt_succ hk)
    have hhead : a ≠ x := by simpa using h 0 (Nat.succ_pos _)
    rw [State.placeBytes, ih htail, State.write_read, if_neg hhead]

/-- Bytes that fit in the 256 cells are read back in order, wrapping past 0xFF (R27). -/
theorem State.placeBytes_read {s : State} {a : Byte} {bs : List Byte} (hfit : bs.length ≤ 256) {k : Nat}
    (hk : k < bs.length) : (s.placeBytes a bs).read (offset a k) = bs[k] := by
  induction bs generalizing s a k with
  | nil => cases hk
  | cons b bs ih =>
    simp only [List.length_cons] at hfit hk
    rw [State.placeBytes]
    cases k with
    | zero =>
      rw [offset_zero, State.placeBytes_read_outside, State.write_read, if_pos rfl, List.getElem_cons_zero]
      intro j hj
      rw [offset_offset]
      exact offset_ne_self a (by omega) (by omega)
    | succ k =>
      have haddr : offset a (k + 1) = offset (offset a 1) k := by rw [offset_offset, Nat.add_comm]
      rw [haddr, ih (by omega) (by omega), List.getElem_cons_succ]

/-! ### The fetch -/

/-- The core fetches `i` exactly if the bytes from pc on are its encoding. -/
theorem State.fetchDecoded_eq_instr_iff {s : State} {i : Instr} :
    s.fetchDecoded = .instr i ↔ encode i = (List.range (instrLength i)).map fun k => s.read (s.pcAfter k) := by
  have hthree : [s.read s.pc, s.read (s.pcAfter 1), s.read (s.pcAfter 2)] =
      (List.range 3).map fun k => s.read (s.pcAfter k) := by
    simp [List.range_succ, State.pcAfter]
  rw [State.fetchDecoded, decode_eq_instr_iff, hthree, ← List.map_take, List.take_range,
    instrLength, Nat.min_eq_left (formatLength_le _)]

theorem State.fetchDecoded_placeBytes_encode (s : State) (p : Byte) (i : Instr) :
    ((s.placeBytes p (encode i)).setPc p).fetchDecoded = .instr i := by
  have hfit : (encode i).length ≤ 256 := by
    have := formatLength_le (opcodeFormat i.opcode)
    rw [length_encode, instrLength]
    omega
  rw [State.fetchDecoded_eq_instr_iff, ← length_encode]
  refine List.ext_getElem (by simp) fun k hk _ => ?_
  rw [List.getElem_map, List.getElem_range]
  exact (State.placeBytes_read hfit hk).symm

/-- Settles O3: placed bytes read back in order, and those of an encoding are what the core fetches that instruction
from; a Running step is then `exec` of it. -/
theorem encodedInstructionIsFetchedBack : Obligations.EncodedInstructionIsFetchedBack := by
  intro s p i
  have hfetch := s.fetchDecoded_placeBytes_encode p i
  refine ⟨hfetch, fun hrun => step_of_fetchDecoded_eq_instr ?_ hfetch⟩
  rw [State.setPc_runState, State.placeBytes_eq]
  exact hrun

/-! ### The dispatcher's table and the step -/

/-- Settles O1: each word's first byte is a row's opcode byte, or one of R75's. -/
theorem decodesWrittenOutWords : Obligations.DecodesWrittenOutWords :=
  ⟨decode_opcodeByte .hlt _ _, decode_opcodeByte .ldi _ _, decode_opcodeByte .prn _ _, decode_opcodeByte .add _ _,
    decode_opcodeByte .push _ _, decode_opcodeByte .jne _ _, decode_of_isIllegalByte rfl _ _⟩

theorem exists_decode_eq_instr_iff (op a b : Byte) : (∃ i, decode op a b = .instr i) ↔ isIllegalByte op = false := by
  refine ⟨fun ⟨i, hi⟩ => ?_, fun h => decode_of_isIllegalByte_eq_false h a b⟩
  by_contra hne
  rw [decode_of_isIllegalByte (eq_true_of_ne_false hne)] at hi
  cases hi

/-- Settles O2: the decoder at each row's opcode byte, the table's columns, and R75's set as the complement. -/
theorem opcodeMapIsTheTable : Obligations.OpcodeMapIsTheTable := by
  refine ⟨fun a b => ?_, rfl, exists_decode_eq_instr_iff⟩
  exact ⟨decode_opcodeByte .hlt a b, decode_opcodeByte .ldi a b, decode_opcodeByte .prn a b, decode_opcodeByte .add a b,
    decode_opcodeByte .mul a b, decode_opcodeByte .push a b, decode_opcodeByte .pop a b, decode_opcodeByte .call a b,
    decode_opcodeByte .ret a b, decode_opcodeByte .and a b, decode_opcodeByte .not a b, decode_opcodeByte .or a b,
    decode_opcodeByte .xor a b, decode_opcodeByte .cmp a b, decode_opcodeByte .jmp a b, decode_opcodeByte .jne a b,
    decode_opcodeByte .jeq a b⟩

/-- Settles O5: R74 row by row. -/
theorem opcodeBitsGiveLengthAndClass : Obligations.OpcodeBitsGiveLengthAndClass := by
  intro o
  cases o <;> decide

/-- Settles O6: the statement's addresses are the fetch's, and the decoder rejects no byte but R75's. -/
theorem stepRunsDecodedInstruction : Obligations.StepRunsDecodedInstruction := by
  refine fun s hrun => ⟨fun i hi => step_of_fetchDecoded_eq_instr hrun hi, fun op hop => ?_⟩
  rcases decode_cases (s.read s.pc) (s.read (u8 (s.pc.toNat + 1))) (s.read (u8 (s.pc.toNat + 2))) with
    ⟨o, -, hd⟩ | ⟨hnone, hd⟩
  · cases hd.symm.trans hop
  · obtain rfl := Decoded.illegalInstruction.inj (hop.symm.trans hd)
    exact ⟨rfl, step_of_isIllegalByte hrun (opcodeOfByte_eq_none_iff.1 hnone)⟩

end Sys2Proof.Machine

/-! What each row's meaning answers on the registers its operand bytes name, and that these answers and the register halt
are all of `exec`: it is total, and `Effect` is its graph. -/

namespace Sys2Proof.Machine

/-! ### Operand bytes -/

@[simp] theorem regByte_toNat_le (r : RegIdx) : (regByte r).toNat ≤ 7 := by
  rw [regByte_toNat]
  exact Nat.le_of_lt_succ r.isLt

@[simp] theorem regOf_regByte (r : RegIdx) : regOf (regByte r) = r := by
  apply Fin.ext
  rw [regOf, Fin.val_ofNat, regByte_toNat, Nat.mod_eq_of_lt r.isLt]

theorem firstBadRegister_eq_none_iff {i : Instr} : i.firstBadRegister = none ↔ i.wellFormed = true := by
  simp [Instr.firstBadRegister, Instr.wellFormed]

theorem toNat_of_firstBadRegister {i : Instr} {r : Byte} (h : i.firstBadRegister = some r) : 7 < r.toNat := by
  simpa using List.find?_some h

/-! ### Each row on registers -/

theorem exec_hlt (s : State) :
    exec .hlt s = .next ((s.setPc (s.pcAfter 1)).haltWith ⟨.hlt, s.pc, 0x01, 0x00⟩) := rfl

theorem exec_add_regByte (a b : RegIdx) (s : State) :
    exec (.add (regByte a) (regByte b)) s = .next ((s.setReg a (aluAdd (s.reg a) (s.reg b))).setPc (s.pcAfter 3)) :=
  aluPair_regByte .add aluAdd a b s

theorem exec_not_regByte (a : RegIdx) (s : State) :
    exec (.not (regByte a)) s = .next ((s.setReg a (aluNot (s.reg a))).setPc (s.pcAfter 2)) :=
  withReg_regByte .not a s _

theorem exec_push_regByte (a : RegIdx) (s : State) :
    exec (.push (regByte a)) s = .next ((s.decSp.write s.pushAddr (s.decSp.reg a)).setPc (s.pcAfter 2)) := by
  rw [← State.decSp_sp]
  exact withReg_regByte .push a s _

theorem exec_pop_regByte (a : RegIdx) (s : State) :
    exec (.pop (regByte a)) s = .next ((s.setReg a (s.read s.sp)).incSp.setPc (s.pcAfter 2)) :=
  withReg_regByte .pop a s _

theorem exec_call_regByte (a : RegIdx) (s : State) :
    exec (.call (regByte a)) s = .next ((s.decSp.write s.pushAddr (s.pcAfter 2)).setPc (s.decSp.reg a)) := by
  rw [← State.decSp_sp]
  exact withReg_regByte .call a s _

theorem exec_cmp_regByte (a b : RegIdx) (s : State) :
    exec (.cmp (regByte a) (regByte b)) s =
      .next ((s.setFl (compareFlags (s.reg a) (s.reg b))).setPc (s.pcAfter 3)) :=
  withRegs_regByte .cmp a b s _

theorem exec_jeq_regByte (a : RegIdx) (s : State) :
    exec (.jeq (regByte a)) s = .next (s.setPc (if flagE s.fl then s.reg a else s.pcAfter 2)) :=
  withReg_regByte .jeq a s _

theorem exec_jne_regByte (a : RegIdx) (s : State) :
    exec (.jne (regByte a)) s = .next (s.setPc (if !flagE s.fl then s.reg a else s.pcAfter 2)) :=
  withReg_regByte .jne a s _

/-! ### `exec` is total -/

theorem withReg_total (o : Opcode) (a : Byte) (s : State) (k : RegIdx → State) : ∃ t, withReg o a s k = .next t := by
  rcases operand_cases a with ⟨r, rfl⟩ | ha
  · exact ⟨_, withReg_regByte o r s k⟩
  · exact ⟨_, withReg_bad o ha s k⟩

theorem withRegs_total (o : Opcode) (a b : Byte) (s : State) (k : RegIdx → RegIdx → State) :
    ∃ t, withRegs o a b s k = .next t := by
  rcases operand_cases a with ⟨p, rfl⟩ | ha
  · rcases operand_cases b with ⟨q, rfl⟩ | hb
    · exact ⟨_, withRegs_regByte o p q s k⟩
    · exact ⟨_, withRegs_bad_second o p hb s k⟩
  · exact ⟨_, withRegs_bad_first o b ha s k⟩

theorem exec_total (i : Instr) (s : State) : ∃ t, exec i s = .next t := by
  cases i with
  | hlt => exact ⟨_, exec_hlt s⟩
  | ret => exact ⟨_, exec_ret s⟩
  | ldi | prn | push | pop | call | not | jmp | jne | jeq => exact withReg_total _ _ s _
  | add | mul | and | or | xor | cmp => exact withRegs_total _ _ _ s _

/-! ### The two ways an instruction can go: the register halt, or the effect of a well-formed row -/

/-- An effect is the register halt of the first bad operand byte (R204, R206), HLT's halt (R130), or leaves the run state
and the halt record as they were. -/
theorem Effect.halt_cases {s t : State} {i : Instr} (he : Effect s i t) :
    (∃ r, i.firstBadRegister = some r ∧ t = haltedBy .invalidRegister s (opcodeByte i.opcode) r) ∨
    (i = .hlt ∧ t = (s.setPc (s.pcAfter 1)).haltWith ⟨.hlt, s.pc, 0x01, 0x00⟩) ∨
    (i ≠ .hlt ∧ i.wellFormed = true ∧ t.runState = s.runState ∧ t.halt = s.halt) := by
  cases he with
  | badRegister h => exact .inl ⟨_, h, rfl⟩
  | hlt => exact .inr (.inl ⟨rfl, rfl⟩)
  | ret => exact .inr (.inr ⟨nofun, rfl, rfl, rfl⟩)
  | ldi | prn | push | pop | call | not | jmp | jne | jeq | add | mul | and | or | xor | cmp =>
    exact .inr (.inr ⟨nofun, by simp [Instr.wellFormed, Instr.regOperands], rfl, rfl⟩)

theorem Effect.eq_haltedBy {s t : State} {i : Instr} {r : Byte} (he : Effect s i t) (h : i.firstBadRegister = some r) :
    t = haltedBy .invalidRegister s (opcodeByte i.opcode) r := by
  have hne : ¬ i.firstBadRegister = none := by simp [h]
  rcases he.halt_cases with ⟨r', hr', rfl⟩ | ⟨rfl, -⟩ | ⟨-, hwf, -⟩
  · obtain rfl := Option.some.inj (hr'.symm.trans h)
    rfl
  · exact absurd rfl hne
  · exact absurd (firstBadRegister_eq_none_iff.2 hwf) hne

theorem exec_of_firstBadRegister {i : Instr} {r : Byte} (h : i.firstBadRegister = some r) (s : State) :
    exec i s = .next (haltedBy .invalidRegister s (opcodeByte i.opcode) r) := by
  obtain ⟨t, ht⟩ := exec_total i s
  rw [ht, (exec_effect ht).eq_haltedBy h]

/-- The converse of `exec_effect`: every effect is what `exec` answers. -/
theorem Effect.exec_eq {s t : State} {i : Instr} (he : Effect s i t) : exec i s = .next t := by
  cases he with
  | badRegister h => exact exec_of_firstBadRegister h s
  | hlt => exact exec_hlt s
  | ret => exact exec_ret s
  | push r => exact exec_push_regByte r s
  | call r => exact exec_call_regByte r s
  | ldi r _ | prn r | pop r | not r | jmp r | jne r | jeq r => exact withReg_regByte _ r s _
  | add p q | mul p q | and p q | or p q | xor p q | cmp p q => exact withRegs_regByte _ p q s _

/-- Settles O25: the first bad operand byte is above 7 and its halt is the only effect; there is none exactly if all
operand bytes are good. -/
theorem badRegisterOperandHaltsPrecisely : Obligations.BadRegisterOperandHaltsPrecisely :=
  fun _ s => ⟨fun _ h => ⟨toNat_of_firstBadRegister h, exec_of_firstBadRegister h s⟩, firstBadRegister_eq_none_iff⟩

end Sys2Proof.Machine

/-! How a step of a Running core can end (R78, R82, R133, R207). -/

namespace Sys2Proof.Machine

theorem step_of_halted {s : State} (h : s.runState = .halted) : step s = .next s := by
  simp only [step, h, State.stepHalted]

theorem isIllegalByte_of_fetchDecoded_eq_instr {s : State} {i : Instr} (h : s.fetchDecoded = .instr i) :
    isIllegalByte (s.read s.pc) = false :=
  (exists_decode_eq_instr_iff _ _ _).1 ⟨i, h⟩

/-- A step of a Running core is R203's halt at an illegal byte, or the effect of the instruction fetched. -/
theorem step_effect {s t : State} (hrun : s.runState = .running) (h : step s = .next t) :
    (isIllegalByte (s.read s.pc) = true ∧ s.fetchDecoded = .illegalInstruction (s.read s.pc) ∧
      t = haltedBy .illegalInstruction s (s.read s.pc) 0x00) ∨
    ∃ i, s.fetchDecoded = .instr i ∧ Effect s i t := by
  cases hill : isIllegalByte (s.read s.pc) with
  | true =>
    rw [step_of_isIllegalByte hrun hill] at h
    exact .inl ⟨rfl, decode_of_isIllegalByte hill _ _, (Host.Outcome.next.inj h).symm⟩
  | false =>
    obtain ⟨i, hi⟩ := decode_of_isIllegalByte_eq_false hill (s.read (s.pcAfter 1)) (s.read (s.pcAfter 2))
    rw [step_of_fetchDecoded_eq_instr hrun hi] at h
    exact .inr ⟨i, hi, exec_effect h⟩

theorem step_total (s : State) : ∃ t, step s = .next t := by
  cases hrun : s.runState with
  | halted => exact ⟨s, step_of_halted hrun⟩
  | running =>
    cases hfetch : s.fetchDecoded with
    | instr i =>
      rw [step_of_fetchDecoded_eq_instr hrun hfetch]
      exact exec_total i s
    | illegalInstruction op => exact ⟨s.raiseIllegalInstruction op, by simp only [step, hrun, hfetch]⟩

/-- Settles O28: a step stays Halted, takes the IllegalInstruction halt or is `exec`, whose operand forms always answer. -/
theorem everyStepAnswersNext : Obligations.EveryStepAnswersNext :=
  ⟨step_total, exec_total⟩

/-- Settles O26: of the steps that end Halted, R203's and R204's write the record over the same state, and the third is
HLT's. -/
theorem faultChangesOnlyTheHaltRecord : Obligations.FaultChangesOnlyTheHaltRecord := by
  intro s t hrun hstep hhalted habnormal
  refine and_assoc.1 ⟨?_, step_of_halted hhalted⟩
  rcases step_effect hrun hstep with ⟨-, -, rfl⟩ | ⟨i, -, he⟩
  · exact ⟨rfl, rfl⟩
  · rcases he.halt_cases with ⟨r, -, rfl⟩ | ⟨-, rfl⟩ | ⟨-, -, hkeep, -⟩
    · exact ⟨rfl, rfl⟩
    · exact absurd ⟨rfl, rfl⟩ habnormal
    · cases hrun.symm.trans (hkeep.symm.trans hhalted)

theorem run_succ_of_step {s t : State} (h : step s = .next t) (k : Nat) : core.run (k + 1) s = core.run k t := by
  have hcore : core.step s = .next t := h
  simp only [Host.Core.run, hcore]

theorem run_of_halted {s : State} (h : s.runState = .halted) (k : Nat) : core.run k s = .next s := by
  induction k with
  | zero => rfl
  | succ k ih => rw [run_succ_of_step (step_of_halted h), ih]

/-- Settles O27: what was fetched decides among R203's halt, R204's halt, HLT's halt and no halt, and each has its own
cause. -/
theorem runEndsExactlyOnHltOrFault : Obligations.RunEndsExactlyOnHltOrFault := by
  refine ⟨fun s t hrun hstep => ?_, fun k s h => run_of_halted h k⟩
  rcases step_effect hrun hstep with ⟨hill, hfetch, rfl⟩ | ⟨i, hfetch, he⟩
  · simp [hfetch, hill, haltedBy]
  · have hlegal := isIllegalByte_of_fetchDecoded_eq_instr hfetch
    rcases he.halt_cases with ⟨r, hbad, rfl⟩ | ⟨rfl, rfl⟩ | ⟨hne, hwf, hkeep, -⟩
    · have hwf : i.wellFormed = false := by simp [← Bool.not_eq_true, ← firstBadRegister_eq_none_iff, hbad]
      have hne : i ≠ .hlt := by
        rintro rfl
        cases hbad
      simp [hfetch, hlegal, hwf, hne, haltedBy]
    · simp [hfetch, hlegal, Instr.wellFormed, Instr.regOperands]
    · simp [hfetch, hlegal, hwf, hne, hkeep, hrun]

end Sys2Proof.Machine

/-! What an effect writes: pc, FL, memory, the registers (R24, R26, R28, R52). -/

namespace Sys2Proof.Machine

/-! ### pc -/

/-- A well-formed instruction leaves `u8(pc0 + length)` or, if it sets pc, the byte at SP or the register it names. -/
theorem Effect.pc_eq {s t : State} {i : Instr} (he : Effect s i t) (hwf : i.wellFormed = true) :
    (setsPc s i = false → t.pc = s.pcAfter (instrLength i)) ∧
    (setsPc s i = true →
      (i = .ret ∧ t.pc = s.read s.sp) ∨ ∃ r, i ∈ [Instr.jmp (regByte r), .call (regByte r), .jeq (regByte r),
        .jne (regByte r)] ∧ t.pc = t.reg r) := by
  cases he with
  | badRegister h => cases h.symm.trans (firstBadRegister_eq_none_iff.2 hwf)
  | hlt | ldi | prn | add | mul | push | pop | and | not | or | xor | cmp => exact ⟨fun _ => rfl, nofun⟩
  | ret => exact ⟨nofun, fun _ => .inl ⟨rfl, rfl⟩⟩
  | jmp r | call r => exact ⟨nofun, fun _ => .inr ⟨r, by simp, rfl⟩⟩
  | jeq r | jne r =>
    refine ⟨fun hset => ?_, fun hset => .inr ⟨r, by simp, ?_⟩⟩ <;> rw [State.setPc_pc]
    · exact if_neg (Bool.eq_false_iff.1 hset)
    · exact if_pos hset

/-- Settles O29: `exec` answers an effect, and each effect's pc is `u8(pc0 + length)` or the target. -/
theorem nextPcIsLengthOrTarget : Obligations.NextPcIsLengthOrTarget := by
  intro i s hwf
  obtain ⟨t, ht⟩ := exec_total i s
  obtain ⟨hlength, htarget⟩ := (exec_effect ht).pc_eq hwf
  refine ⟨t, ht, fun hset => ?_, fun hset => (htarget hset).imp_right fun ⟨r, hr, hpc⟩ => ?_⟩
  · rw [hlength hset, State.pcAfter, offset_toNat]
  · exact ⟨regByte r, hr, by rw [regOf_regByte, hpc]⟩

/-! ### FL -/

theorem compareFlags_cases (p q : Byte) :
    compareFlags p q = 0b001 ∨ compareFlags p q = 0b010 ∨ compareFlags p q = 0b100 := by
  rcases Nat.lt_trichotomy p.toNat q.toNat with h | h | h
  · exact .inr (.inr (compareFlags_less h))
  · rw [BitVec.eq_of_toNat_eq h]
    exact .inl (compareFlags_equal q)
  · exact .inr (.inl (compareFlags_greater h))

/-- Only a CMP writes FL, and what it writes is an outcome of a comparison. -/
theorem Effect.fl_cases {s t : State} {i : Instr} (he : Effect s i t) :
    t.fl = s.fl ∨ ∃ p q, i = .cmp (regByte p) (regByte q) ∧ t.fl = compareFlags (s.reg p) (s.reg q) := by
  cases he with
  | cmp p q => exact .inr ⟨p, q, rfl, rfl⟩
  | badRegister | hlt | ldi | prn | add | mul | push | pop | call | ret | and | not | or | xor | jmp | jne | jeq =>
    exact .inl rfl

/-- Settles O30: the one effect that writes FL is CMP's, whose opcode byte is 0xA7, and it writes one of three values. -/
theorem onlyCmpWritesFlags : Obligations.OnlyCmpWritesFlags := by
  refine ⟨fun i s t hexec hne => ?_, fun s t hstep hne => ?_, fun s t a b hexec => ?_⟩
  · obtain ⟨p, q, hi, -⟩ := (exec_effect hexec).fl_cases.resolve_left hne
    exact ⟨_, _, hi⟩
  · rcases step_cases hstep with ⟨-, rfl⟩ | ⟨-, -, rfl⟩ | ⟨hrun, o, ho, hexec⟩
    · exact absurd rfl hne
    · exact absurd rfl hne
    · obtain ⟨p, q, hi, -⟩ := (exec_effect hexec).fl_cases.resolve_left hne
      have hcmp : o = .cmp := by rw [← opcode_assemble o, hi, Instr.opcode]
      exact ⟨hrun, by rw [ho, hcmp, opcodeByte]⟩
  · rw [exec_cmp_regByte] at hexec
    obtain rfl := Host.Outcome.next.inj hexec
    exact compareFlags_cases _ _

/-! ### Memory -/

/-- PUSH and CALL write one cell, at the decremented SP; every other effect leaves memory (R52). -/
theorem Effect.mem_cases {s t : State} {i : Instr} (he : Effect s i t) :
    t.mem = s.mem ∨
      ∃ r v, (i = .push (regByte r) ∨ i = .call (regByte r)) ∧ t.mem = (s.write s.pushAddr v).mem := by
  cases he with
  | push r => exact .inr ⟨r, _, .inl rfl, rfl⟩
  | call r => exact .inr ⟨r, _, .inr rfl, rfl⟩
  | badRegister | hlt | ldi | prn | add | mul | pop | ret | and | not | or | xor | cmp | jmp | jne | jeq =>
    exact .inl rfl

theorem State.read_congr {s t : State} (h : s.mem = t.mem) (x : Byte) : s.read x = t.read x := by
  rw [State.read, State.read, h]

/-- Settles O32: the one write of a PUSH or CALL reads back elsewhere as the byte before. -/
theorem onlyPushAndCallStore : Obligations.OnlyPushAndCallStore := by
  intro i s t x hexec hne
  rcases (exec_effect hexec).mem_cases with hmem | ⟨r, v, hi, hmem⟩
  · exact absurd (State.read_congr hmem x) hne
  · rw [State.read_congr hmem, State.write_read] at hne
    exact ⟨⟨r, hi⟩, by_contra fun hx => hne (if_neg (Ne.symm hx))⟩

/-! ### Registers -/

theorem State.eq_of_setReg_reg_ne {s : State} {r q : RegIdx} {v : Byte} (h : (s.setReg r v).reg q ≠ s.reg q) : q = r :=
  by_contra fun hne => h (State.setReg_reg_other s v (Ne.symm hne))

theorem Effect.mem_writtenRegs {s t : State} {i : Instr} (he : Effect s i t) {q : RegIdx} (h : t.reg q ≠ s.reg q) :
    q ∈ writtenRegs i := by
  cases he with
  | badRegister | hlt | prn | cmp | jmp | jne | jeq => exact absurd rfl h
  | ldi r | not r | add r | mul r | and r | or r | xor r =>
    rw [writtenRegs, regOf_regByte, State.eq_of_setReg_reg_ne h]
    exact List.mem_cons_self
  | push | call | ret =>
    rw [writtenRegs, State.eq_of_setReg_reg_ne (r := 7) h]
    exact List.mem_cons_self
  | pop r =>
    rw [writtenRegs, regOf_regByte, List.mem_pair]
    by_contra hno
    obtain ⟨hr, h7⟩ := not_or.1 hno
    exact h ((State.incSp_reg _ h7).trans (State.setReg_reg_other s _ (Ne.symm hr)))

/-- Settles O33: `exec` answers an effect, which writes at most its row's registers. -/
theorem registerWritesFollowTheTable : Obligations.RegisterWritesFollowTheTable :=
  fun _ _ _ _ hexec hne => (exec_effect hexec).mem_writtenRegs hne

end Sys2Proof.Machine

/-! What no instruction reads: the halt record and the output (R32, R134), and FL.G and FL.L (R29). -/

namespace Sys2Proof.Machine

/-! ### The halt record and the output -/

/-- `t'` is what the step from `s` to `t` becomes, with events `e`, if it starts with record `h` and output `o`. -/
def OverOtherRecord (s t : State) (h : HaltRecord) (o : List Byte) (t' : State) (e : List Byte) : Prop :=
  t.out = s.out ++ e ∧ t' = { t with halt := t'.halt, out := o ++ e } ∧
    (t.runState = .halted → t'.halt = t.halt) ∧ (t.runState = .running → t.halt = s.halt ∧ t'.halt = h)

theorem OverOtherRecord.of_halted {s t : State} (h : HaltRecord) (o : List Byte) (hout : t.out = s.out)
    (hhalted : t.runState = .halted) : OverOtherRecord s t h o { t with out := o } [] := by
  simp [OverOtherRecord, hout, hhalted]

theorem OverOtherRecord.of_running {s t : State} (h : HaltRecord) (o : List Byte) {e : List Byte}
    (hout : t.out = s.out ++ e) (hrun : t.runState = .running) (hhalt : t.halt = s.halt) :
    OverOtherRecord s t h o { t with halt := h, out := o ++ e } e := by
  simp [OverOtherRecord, hout, hrun, hhalt]

/-- An effect that emits nothing and leaves the run state and the record. -/
theorem OverOtherRecord.of_silent {s t : State} (h : HaltRecord) (o : List Byte) (hout : t.out = s.out)
    (hrun : t.runState = .running) (hhalt : t.halt = s.halt) :
    OverOtherRecord s t h o { t with halt := h, out := o } [] := by
  simp [OverOtherRecord, hout, hrun, hhalt]

/-- An instruction has, over another record and output, the same effect. -/
theorem Effect.over_other_record {s t : State} {i : Instr} (he : Effect s i t) (hrun : s.runState = .running)
    (h : HaltRecord) (o : List Byte) :
    ∃ t' e, Effect { s with halt := h, out := o } i t' ∧ OverOtherRecord s t h o t' e := by
  cases he with
  | badRegister hbad => exact ⟨_, [], .badRegister hbad, .of_halted h o rfl rfl⟩
  | hlt => exact ⟨_, [], .hlt, .of_halted h o rfl rfl⟩
  | prn r => exact ⟨_, [s.reg r], .prn r, .of_running h o rfl hrun rfl⟩
  | ldi | add | mul | push | pop | call | ret | and | not | or | xor | cmp | jmp | jne | jeq =>
    exact ⟨_, [], by constructor, .of_silent h o rfl hrun rfl⟩

theorem step_of_effect {s t : State} {i : Instr} (hrun : s.runState = .running) (hfetch : s.fetchDecoded = .instr i)
    (he : Effect s i t) : step s = .next t := by
  rw [step_of_fetchDecoded_eq_instr hrun hfetch, he.exec_eq]

/-- Settles O34: the fetch reads memory and pc alone, so the other run fetches the same instruction or the same illegal
byte, and has the same effect. -/
theorem haltRecordAndOutputAreNeverRead : Obligations.HaltRecordAndOutputAreNeverRead := by
  intro s t h o hrun hstep
  rcases step_effect hrun hstep with ⟨hill, -, rfl⟩ | ⟨i, hfetch, he⟩
  · exact ⟨_, [], step_of_isIllegalByte hrun hill, OverOtherRecord.of_halted h o rfl rfl⟩
  · obtain ⟨t', e, he', hover⟩ := he.over_other_record hrun h o
    exact ⟨t', e, step_of_effect hrun hfetch he', hover⟩

/-! ### FL.G and FL.L -/

theorem State.running_or_halted (s : State) : s.runState = .running ∨ s.runState = .halted := by
  cases s.runState with
  | running => exact .inl rfl
  | halted => exact .inr rfl

/-- Over another FL with the same Equal bit an instruction has the same effect, on FL too if it writes it. -/
theorem Effect.over_other_flags {s t : State} {i : Instr} (he : Effect s i t) {f : Flags} (hE : flagE f = flagE s.fl) :
    Effect { s with fl := f } i t ∨ t.fl = s.fl ∧ Effect { s with fl := f } i { t with fl := f } := by
  cases he with
  | cmp p q => exact .inl (.cmp p q)
  | badRegister hbad => exact .inr ⟨rfl, .badRegister hbad⟩
  | hlt => exact .inr ⟨rfl, .hlt⟩
  | ldi | prn | add | mul | push | pop | call | ret | and | not | or | xor | jmp =>
    exact .inr ⟨rfl, by constructor⟩
  | jne | jeq =>
    rw [← hE]
    exact .inr ⟨rfl, by constructor⟩

/-- Settles O35: the fetch reads no flag, and an effect reads the Equal bit alone, which the two states share. -/
theorem greaterAndLessAreNeverRead : Obligations.GreaterAndLessAreNeverRead := by
  intro s t f hE hstep
  rcases s.running_or_halted with hrun | hhalted
  · rcases step_effect hrun hstep with ⟨hill, -, rfl⟩ | ⟨i, hfetch, he⟩
    · exact ⟨_, step_of_isIllegalByte hrun hill, rfl, .inr ⟨rfl, rfl⟩⟩
    · rcases he.over_other_flags hE with he' | ⟨hfl, he'⟩
      · exact ⟨t, step_of_effect hrun hfetch he', rfl, .inl rfl⟩
      · exact ⟨_, step_of_effect hrun hfetch he', rfl, .inr ⟨hfl, rfl⟩⟩
  · obtain rfl := Host.Outcome.next.inj ((step_of_halted hhalted).symm.trans hstep)
    exact ⟨_, step_of_halted hhalted, rfl, .inr ⟨rfl, rfl⟩⟩

end Sys2Proof.Machine

/-! The invariant: what an effect and a halt keep of it, and that it holds of every run from a reset or a launch
(R31, R61, R230). -/

namespace Sys2Proof.Machine

/-! ### The halt record after a step -/

/-- A Running core agrees with its halt record exactly if the record is clear (R31). -/
theorem haltRecordAgrees_iff_of_running {s : State} (hrun : s.runState = .running) :
    HaltRecordAgrees s ↔ s.halt = HaltRecord.clear := by
  unfold HaltRecordAgrees
  rw [hrun]
  refine ⟨fun h => ?_, fun h => by rw [h]; rfl⟩
  cases hcause : s.halt.cause with
  | none => simpa only [hcause] using h
  | hlt | illegalInstruction | invalidRegister => simp only [hcause] at h

/-- The illegal byte is the one at pc, which the halt leaves. -/
theorem haltRecordAgrees_of_isIllegalByte {s : State} (h : isIllegalByte (s.read s.pc) = true) :
    HaltRecordAgrees (haltedBy .illegalInstruction s (s.read s.pc) 0x00) :=
  ⟨h, rfl, rfl, rfl⟩

theorem regOperands_assemble (o : Opcode) (a b : Byte) : (assemble o a b).regOperands <+: [a, b] := by
  cases o <;> simp [assemble, Instr.regOperands]

/-- The first bad operand byte of a decoded instruction is the first byte above 7 after the opcode byte, or the second if
the first is good (R206). -/
theorem operand_of_firstBadRegister_assemble {o : Opcode} {a b r : Byte}
    (h : (assemble o a b).firstBadRegister = some r) : a = r ∨ a.toNat ≤ 7 ∧ b = r := by
  have hfind := (regOperands_assemble o a b).find?_eq_some h
  by_cases ha : 7 < a.toNat
  · rw [List.find?_cons_of_pos (by simpa using ha)] at hfind
    exact .inl (Option.some.inj hfind)
  · rw [List.find?_cons_of_neg (by simpa using ha)] at hfind
    exact .inr ⟨Nat.le_of_not_lt ha, List.mem_singleton.1 (List.mem_of_find?_eq_some hfind) |>.symm⟩

/-- The record's operand is among the bytes at pc, which the halt leaves. -/
theorem haltRecordAgrees_of_firstBadRegister {s : State} {o : Opcode} {r : Byte} (hop : s.read s.pc = opcodeByte o)
    (h : (assemble o (s.read (s.pcAfter 1)) (s.read (s.pcAfter 2))).firstBadRegister = some r) :
    HaltRecordAgrees (haltedBy .invalidRegister s (opcodeByte o) r) :=
  ⟨isIllegalByte_opcodeByte o, toNat_of_firstBadRegister h, rfl, hop, operand_of_firstBadRegister_assemble h⟩

theorem haltRecordAgrees_of_hlt {s : State} (hop : s.read s.pc = 0x01) :
    HaltRecordAgrees ((s.setPc (s.pcAfter 1)).haltWith ⟨.hlt, s.pc, 0x01, 0x00⟩) :=
  ⟨rfl, rfl, offset_toNat s.pc 1, hop⟩

/-- Each way the instruction at pc can go leaves a record that agrees. -/
theorem Effect.haltRecordAgrees {s t : State} {o : Opcode}
    (he : Effect s (assemble o (s.read (s.pcAfter 1)) (s.read (s.pcAfter 2))) t) (hop : s.read s.pc = opcodeByte o)
    (hrun : s.runState = .running) (hs : HaltRecordAgrees s) : HaltRecordAgrees t := by
  rcases he.halt_cases with ⟨r, hbad, rfl⟩ | ⟨hhlt, rfl⟩ | ⟨-, -, hkeep, hhalt⟩
  · rw [opcode_assemble]
    exact haltRecordAgrees_of_firstBadRegister hop hbad
  · have ho : o = .hlt := by rw [← opcode_assemble o, hhlt, Instr.opcode]
    exact haltRecordAgrees_of_hlt (by rw [hop, ho, opcodeByte])
  · rw [haltRecordAgrees_iff_of_running (hkeep.trans hrun), hhalt]
    exact (haltRecordAgrees_iff_of_running hrun).1 hs

/-! ### Memory and FL after a step -/

theorem Effect.mem_wf {s t : State} {i : Instr} (he : Effect s i t) (hs : s.mem.wf) : t.mem.wf := by
  rcases he.mem_cases with hmem | ⟨r, v, -, hmem⟩ <;> rw [hmem]
  · exact hs
  · exact State.write_wf hs _ v

theorem Effect.flagsExclusive {s t : State} {i : Instr} (he : Effect s i t)
    (hs : s.fl = 0b000 ∨ s.fl = 0b001 ∨ s.fl = 0b010 ∨ s.fl = 0b100) :
    t.fl = 0b000 ∨ t.fl = 0b001 ∨ t.fl = 0b010 ∨ t.fl = 0b100 := by
  rcases he.fl_cases with hfl | ⟨p, q, -, hfl⟩ <;> rw [hfl]
  · exact hs
  · exact .inr (compareFlags_cases _ _)

/-! ### The invariant along a run -/

theorem step_keeps_inv {s t : State} (hs : Inv s) (hstep : step s = .next t) : Inv t := by
  obtain ⟨hmem, hfl, hhalt⟩ := hs
  rcases step_cases hstep with ⟨-, rfl⟩ | ⟨-, hnone, rfl⟩ | ⟨hrun, o, hop, hexec⟩
  · exact ⟨hmem, hfl, hhalt⟩
  · exact ⟨hmem, hfl, haltRecordAgrees_of_isIllegalByte (opcodeOfByte_eq_none_iff.1 hnone)⟩
  · have he := exec_effect hexec
    exact ⟨he.mem_wf hmem, he.flagsExclusive hfl, he.haltRecordAgrees hop hrun hhalt⟩

/-- Settles O40: memory, FL and the halt record one by one, for each thing a step can do. -/
theorem stepKeepsTheInvariant : Obligations.StepKeepsTheInvariant :=
  fun _ _ => step_keeps_inv

/-- What every step keeps, every run keeps. -/
theorem run_induction {P : State → Prop} (hstep : ∀ s t, P s → step s = .next t → P t) {k : Nat} {s t : State}
    (hs : P s) (hrun : core.run k s = .next t) : P t := by
  induction k generalizing s with
  | zero =>
    obtain rfl := Host.Outcome.next.inj hrun
    exact hs
  | succ k ih =>
    obtain ⟨s', hs'⟩ := step_total s
    rw [run_succ_of_step hs'] at hrun
    exact ih (hstep s s' hs hs') hrun

/-- Settles O41: by induction on the number of steps from O40. -/
theorem everyRunKeepsTheInvariant : Obligations.EveryRunKeepsTheInvariant :=
  fun _ _ _ => run_induction stepKeepsTheInvariant

/-! ### Reset and launch -/

/-- A reset leaves no flag and a clear record, so the invariant is left to ask for canonical memory (R33, R230). -/
theorem inv_hostReset {s : State} (hs : s.mem.wf) : Inv s.hostReset :=
  ⟨State.hostReset_wf hs, .inl rfl, (haltRecordAgrees_iff_of_running rfl).2 rfl⟩

/-- Settles O38: `State.reset` is a reset of empty memory. -/
theorem resetMeetsTheInvariant : Obligations.ResetMeetsTheInvariant :=
  inv_hostReset (s := State.reset) Memory.nil_wf

theorem launch_of_length_le {image : List Byte} (h : image.length ≤ 256) :
    launch image = some (State.reset.withImage image).hostReset :=
  if_pos h

theorem launch_of_lt_length {image : List Byte} (h : 256 < image.length) : launch image = none :=
  if_neg (Nat.not_le.2 h)

/-- Settles O39: a launch is a reset of the memory its image was loaded into, and an image that fits loads canonically. -/
theorem launchMeetsTheInvariant : Obligations.LaunchMeetsTheInvariant := by
  intro image s hlaunch
  rcases Nat.lt_or_ge 256 image.length with hlong | hfit
  · rw [launch_of_lt_length hlong] at hlaunch
    cases hlaunch
  · rw [launch_of_length_le hfit] at hlaunch
    obtain rfl := Option.some.inj hlaunch
    exact inv_hostReset (Memory.load_wf Memory.nil_wf 0 image (by rwa [Nat.zero_add]))

/-- A loaded cell holds its byte of the image, and 0x00 past the image's end (R61). -/
theorem State.withImage_hostReset_read (s : State) (image : List Byte) (x : Byte) :
    (s.withImage image).hostReset.read x = image.getD x.toNat 0x00 := by
  show (Memory.load [] 0 image).read x.toNat = _
  rw [Memory.read_load, Nat.zero_add]
  split
  · rfl
  · rename_i hout
    rw [List.getD_eq_default _ _ (by omega)]
    rfl

/-- Settles O37: the loaded memory byte by byte, of which the first fetch reads the first three. -/
theorem launchPlacesTheImage : Obligations.LaunchPlacesTheImage := by
  refine ⟨fun image hfit => ?_, fun image hlong => launch_of_lt_length hlong⟩
  have hread := State.reset.withImage_hostReset_read image
  refine ⟨_, launch_of_length_le hfit, hread, rfl, ?_⟩
  rw [State.fetchDecoded, hread, hread, hread]
  rfl

/-- Settles O36: reset writes every field but memory with R33's value, which is `State.reset`'s. -/
theorem resetRestoresAllButMemory : Obligations.ResetRestoresAllButMemory := by
  refine ⟨fun s => ⟨?_, rfl, rfl, rfl, rfl, rfl, rfl, fun _ => rfl⟩, rfl, fun _ => rfl⟩
  show ∀ r : RegIdx, r ≠ 7 → State.reset.reg r = 0x00
  decide

/-! ### Canonical memory is determined by what it reads -/

theorem Memory.read_eq_unwritten {m : Memory} {a : Nat} (h : ∀ c ∈ m, c.1 ≠ a) : m.read a = Config.unwrittenCell := by
  induction m with
  | nil => rfl
  | cons c m ih =>
    rw [Memory.read, if_neg (h c List.mem_cons_self)]
    exact ih fun d hd => h d (List.mem_cons_of_mem _ hd)

theorem Memory.wf_cons {c : Host.Cell} {m : Memory} (h : Memory.wf (c :: m)) :
    (∀ d ∈ m, c.1 < d.1) ∧ c.1 < Config.memorySize ∧ c.2 ≠ Config.unwrittenCell ∧ m.wf := by
  obtain ⟨hrise, hcells⟩ := h
  obtain ⟨hhead, htail⟩ := List.pairwise_cons.1 hrise
  obtain ⟨hlt, hne⟩ := hcells c List.mem_cons_self
  exact ⟨hhead, hlt, hne, htail, fun d hd => hcells d (List.mem_cons_of_mem _ hd)⟩

/-- The first cell of a canonical memory is listed, at no higher address, in one that reads alike. -/
theorem Memory.head_le_of_read_eq {c d : Host.Cell} {m m' : Memory} (hc : Memory.wf (c :: m)) (hd : Memory.wf (d :: m'))
    (h : ∀ a, Memory.read (c :: m) a = Memory.read (d :: m') a) : d.1 ≤ c.1 := by
  by_contra hlt
  obtain ⟨-, -, hne, -⟩ := Memory.wf_cons hc
  obtain ⟨hrise, -⟩ := Memory.wf_cons hd
  have hunlisted : ∀ e ∈ d :: m', e.1 ≠ c.1 := by
    intro e he
    rcases List.mem_cons.1 he with rfl | he
    · omega
    · have := hrise e he
      omega
  have hread := h c.1
  rw [Memory.read_eq_unwritten hunlisted, Memory.read, if_pos rfl] at hread
  exact hne hread

theorem Memory.eq_nil_of_read_eq {m : Memory} (hm : m.wf) (h : ∀ a, m.read a = Config.unwrittenCell) : m = [] := by
  cases m with
  | nil => rfl
  | cons c m =>
    obtain ⟨-, -, hne, -⟩ := Memory.wf_cons hm
    exact absurd (by simpa [Memory.read] using h c.1) hne

/-- By induction on the list: the first cells agree, and below and at that address the rests hold nothing. -/
theorem Memory.eq_of_read_eq {m m' : Memory} (hm : m.wf) (hm' : m'.wf) (h : ∀ a, m.read a = m'.read a) : m = m' := by
  induction m generalizing m' with
  | nil => exact (Memory.eq_nil_of_read_eq hm' fun a => (h a).symm).symm
  | cons c m ih =>
    cases m' with
    | nil => exact Memory.eq_nil_of_read_eq hm h
    | cons d m' =>
      have hkey : c.1 = d.1 :=
        Nat.le_antisymm (Memory.head_le_of_read_eq hm' hm fun a => (h a).symm) (Memory.head_le_of_read_eq hm hm' h)
      obtain ⟨hrise, -, -, htail⟩ := Memory.wf_cons hm
      obtain ⟨hrise', -, -, htail'⟩ := Memory.wf_cons hm'
      have hbyte : c.2 = d.2 := by simpa [Memory.read, hkey] using h c.1
      have hrest : ∀ a, Memory.read m a = Memory.read m' a := by
        intro a
        by_cases ha : c.1 = a
        · subst ha
          rw [Memory.read_eq_unwritten fun e he => (hrise e he).ne', hkey,
            Memory.read_eq_unwritten fun e he => (hrise' e he).ne']
        · simpa [Memory.read, ← hkey, ha] using h a
      rw [ih htail htail' hrest, Prod.ext hkey hbyte]

theorem Memory.read_of_memorySize_le {m : Memory} (hm : m.wf) {a : Nat} (ha : Config.memorySize ≤ a) :
    m.read a = Config.unwrittenCell :=
  Memory.read_eq_unwritten fun c hc => Nat.ne_of_lt (Nat.lt_of_lt_of_le (hm.2 c hc).1 ha)

/-- Settles O42: above the 256 cells canonical memories list nothing, so they read alike there too. -/
theorem canonicalMemoriesReadingAlikeAreEqual : Obligations.CanonicalMemoriesReadingAlikeAreEqual := by
  intro m m' hm hm' h
  refine Memory.eq_of_read_eq hm hm' fun a => ?_
  rcases Nat.lt_or_ge a 256 with ha | ha
  · have hbyte := h (u8 a)
    rwa [u8_toNat, Nat.mod_eq_of_lt ha] at hbyte
  · rw [Memory.read_of_memorySize_le hm ha, Memory.read_of_memorySize_le hm' ha]

end Sys2Proof.Machine

/-! The rules of the instructions of one register, of HLT, and of the stack, compare and branch instructions (R105, R130,
R132, R151-R153, R170-R174). -/

namespace Sys2Proof.Machine

/-! ### NOT, HLT and PRN -/

theorem aluNot_toNat (p : Byte) : (aluNot p).toNat = 255 - p.toNat := by
  have hnot : aluNot p = ~~~p := BitVec.allOnes_xor
  rw [hnot, BitVec.toNat_not]

/-- Settles O12: the row's two bytes, the complement on naturals over the frame of a register write, and the check of
op_a. -/
theorem notWritesEightBitComplement : Obligations.NotWritesEightBitComplement := by
  refine ⟨fun a b => ⟨decode_opcodeByte .not a b, rfl⟩, fun s a => ?_,
    rejectsBadRegister_of_exec_eq_withReg (o := .not) fun _ _ => rfl⟩
  refine ⟨_, exec_not_regByte a s, ?_, advancesBy_setPc_pcAfter s _ 2, ⟨rfl, rfl⟩, frame_setReg_setPc s a _ _⟩
  rw [State.setPc_reg, State.setReg_reg_same, aluNot_toNat]

/-- Settles O13: the row's one byte, and the halt over the state with pc advanced, field by field. -/
theorem hltAdvancesPcAndHalts : Obligations.HltAdvancesPcAndHalts :=
  ⟨decode_opcodeByte .hlt, rfl, fun s => ⟨_, exec_hlt s, rfl, rfl, offset_toNat s.pc 1, ⟨rfl, rfl⟩, fun _ => rfl,
    fun _ => rfl⟩⟩

theorem frame_emit_setPc (s : State) (v p : Byte) : Frame [] [] s ((s.emit v).setPc p) :=
  ⟨fun _ _ => rfl, fun _ _ => rfl, rfl, rfl⟩

/-- Settles O15: the row's two bytes, the one event over the frame of an output, and the check of op_a. -/
theorem prnEmitsTheRegister : Obligations.PrnEmitsTheRegister :=
  ⟨fun a b => ⟨decode_opcodeByte .prn a b, rfl⟩,
    fun s a => ⟨_, exec_prn_regByte a s, rfl, advancesBy_setPc_pcAfter s _ 2, rfl, frame_emit_setPc s _ _⟩,
    rejectsBadRegister_of_exec_eq_withReg (o := .prn) fun _ _ => rfl⟩

/-! ### The stack -/

theorem State.pushAddr_toNat (s : State) : s.pushAddr.toNat = (s.sp.toNat + 255) % 256 := offset_toNat s.sp 255

/-- What PUSH and CALL store is read back at the decremented SP, and it is the one cell they change. -/
theorem State.decSp_write_read (s : State) (v x : Byte) :
    (s.decSp.write s.pushAddr v).read x = if s.pushAddr = x then v else s.read x := by
  rw [State.write_read, State.decSp_read]

theorem frame_decSp_write_setPc (s : State) (v p : Byte) :
    Frame [7] [s.pushAddr] s ((s.decSp.write s.pushAddr v).setPc p) := by
  refine ⟨fun r hr => State.decSp_reg s (List.ne_of_not_mem_cons hr), fun x hx => ?_, rfl, rfl⟩
  rw [State.setPc_read, State.decSp_write_read, if_neg (Ne.symm (List.ne_of_not_mem_cons hx))]

/-- Settles O16: the row's two bytes, the decremented SP and the cell there over the frame of a push, and the check of
op_a. -/
theorem pushStoresBelowTheStackPointer : Obligations.PushStoresBelowTheStackPointer := by
  refine ⟨fun a b => ⟨decode_opcodeByte .push a b, rfl⟩, fun s a => ?_,
    rejectsBadRegister_of_exec_eq_withReg (o := .push) fun _ _ => rfl⟩
  refine ⟨_, exec_push_regByte a s, s.pushAddr_toNat, s.decSp_sp, ?_, advancesBy_setPc_pcAfter s _ 2, ⟨rfl, rfl⟩,
    frame_decSp_write_setPc s _ _⟩
  rw [State.setPc_read, State.decSp_write_read, if_pos rfl, State.setPc_reg, State.write_reg]

/-- Settles O18: the row's two bytes, the decremented SP, the return address there and the jump over the frame of a push,
and the check of op_a. -/
theorem callPushesReturnAddressAndJumps : Obligations.CallPushesReturnAddressAndJumps := by
  refine ⟨fun a b => ⟨decode_opcodeByte .call a b, rfl⟩, fun s a => ?_,
    rejectsBadRegister_of_exec_eq_withReg (o := .call) fun _ _ => rfl⟩
  refine ⟨_, exec_call_regByte a s, s.pushAddr_toNat, s.decSp_sp, ?_, rfl, ⟨rfl, rfl⟩, frame_decSp_write_setPc s _ _⟩
  rw [State.setPc_read, State.decSp_write_read, if_pos rfl, State.pcAfter, offset_toNat]

theorem State.setReg_sp (s : State) {r : RegIdx} (h : r ≠ 7) (v : Byte) : (s.setReg r v).sp = s.sp :=
  State.setReg_reg_other s v h

theorem frame_setReg_incSp_setPc (s : State) (r : RegIdx) (v p : Byte) :
    Frame [r, 7] [] s ((s.setReg r v).incSp.setPc p) := by
  refine ⟨fun q hq => ?_, fun _ _ => rfl, rfl, rfl⟩
  rw [List.mem_pair, not_or] at hq
  rw [State.setPc_reg, State.incSp_reg _ hq.2, State.setReg_reg_other s v (Ne.symm hq.1)]

/-- Settles O17: the row's two bytes, the loaded byte and SP incremented as that load left it over the frame of both
writes, and the check of op_a. -/
theorem popLoadsFromTheStackPointer : Obligations.PopLoadsFromTheStackPointer := by
  refine ⟨fun a b => ⟨decode_opcodeByte .pop a b, rfl⟩, fun s a => ?_,
    rejectsBadRegister_of_exec_eq_withReg (o := .pop) fun _ _ => rfl⟩
  refine ⟨_, exec_pop_regByte a s, fun ha => ⟨?_, ?_⟩, fun ha => ?_, advancesBy_setPc_pcAfter s _ 2, ⟨rfl, rfl⟩,
    frame_setReg_incSp_setPc s a _ _⟩
  · rw [State.setPc_reg, State.incSp_reg _ ha, State.setReg_reg_same]
  · rw [State.setPc_sp, State.incSp_sp, State.spAfterPop_toNat, State.setReg_sp s ha]
  · rw [State.setPc_sp, State.incSp_sp, State.spAfterPop_toNat, ha, State.sp_eq, State.setReg_reg_same]

/-! ### Compare and branch -/

theorem frame_setFl_setPc (s : State) (f : Flags) (p : Byte) : Frame [] [] s ((s.setFl f).setPc p) :=
  ⟨fun _ _ => rfl, fun _ _ => rfl, rfl, rfl⟩

/-- Settles O20: the row's bytes, the compare unit's three outcomes over the frame of a write of FL, and the checks of
op_a and op_b. -/
theorem cmpSetsExactlyOneFlag : Obligations.CmpSetsExactlyOneFlag := by
  refine ⟨threeByteEncoding_assemble (o := .cmp) rfl, fun s a b => ?_,
    rejectsBadRegisters_of_exec_eq_withRegs (o := .cmp) fun _ _ _ => rfl⟩
  refine ⟨_, exec_cmp_regByte a b s, compareFlags_greater, compareFlags_less, fun heq => ?_,
    advancesBy_setPc_pcAfter s _ 3, rfl, frame_setFl_setPc s _ _⟩
  rw [State.setPc_fl, State.setFl_fl, heq, compareFlags_equal]

/-- A row whose arm is `branchIf` under a condition on FL keeps the whole rule of R172-R174 for that condition. -/
theorem branchRule_of_exec_eq_branchIf {o : Opcode} {mk : Byte → Instr} {taken : Flags → Prop} {c : Flags → Bool}
    (hbytes : OneRegisterEncoding (opcodeByte o) mk) (hexec : ∀ a s, exec (mk a) s = branchIf o (c s.fl) a s)
    (hc : ∀ f, taken f ↔ c f = true) : BranchRule (opcodeByte o) mk taken := by
  refine ⟨hbytes, fun s a => ?_, rejectsBadRegister_of_exec_eq_withReg hexec⟩
  refine ⟨_, (hexec _ s).trans (withReg_regByte o a s _), fun ht => ?_, fun ht => ?_, ⟨rfl, rfl⟩, frame_setPc s _⟩
  · rw [State.setPc_pc, if_pos ((hc _).1 ht)]
  · rw [if_neg fun h => ht ((hc _).2 h)]
    exact advancesBy_setPc_pcAfter s s 2

/-- Settles O22: the rule of `branchIf` at the row of JEQ, whose condition is FL.E. -/
theorem jeqTakenWhenEqualSet : Obligations.JeqTakenWhenEqualSet :=
  branchRule_of_exec_eq_branchIf (o := .jeq) (c := flagE) (fun a b => ⟨decode_opcodeByte .jeq a b, rfl⟩)
    (fun _ _ => rfl) fun _ => Iff.rfl

/-- Settles O23: the rule of `branchIf` at the row of JNE, whose condition is FL.E clear. -/
theorem jneTakenWhenEqualClear : Obligations.JneTakenWhenEqualClear :=
  branchRule_of_exec_eq_branchIf (o := .jne) (c := fun f => !flagE f) (fun a b => ⟨decode_opcodeByte .jne a b, rfl⟩)
    (fun _ _ => rfl) fun f => by rw [flagE, Bool.not_eq_true']

end Sys2Proof.Machine

/-! Laws of two and three instructions, and of the ALU operations no opcode selects (R60, R109, R115, R116, R132, R156,
R177). -/

namespace Sys2Proof.Machine

/-- Settles O43: PRN emits what it reads, and LDI left the byte there. -/
theorem ldiThenPrnEmitsTheByte : Obligations.LdiThenPrnEmitsTheByte := by
  intro s r v
  refine ⟨_, _, exec_ldi_regByte r v s, exec_prn_regByte r _, ?_⟩
  rw [State.setPc_out, State.emit_out, State.setPc_reg, State.setReg_reg_same, State.setPc_out, State.setReg_out]

/-- A pop from a state whose SP is the address a push from `s` stored at gives SP back. -/
theorem State.spAfterPop_of_sp_eq_pushAddr {s t : State} (h : t.sp = s.pushAddr) : t.spAfterPop = s.sp := by
  rw [State.spAfterPop, h, State.pushAddr, offset_push_pop]

/-- Settles O44: POP reads the cell PUSH stored to and increments the SP PUSH decremented. -/
theorem pushThenPopMovesTheRegister : Obligations.PushThenPopMovesTheRegister := by
  intro s r r' hr hr'
  obtain ⟨t, ht, hexec⟩ : ∃ t, t = (s.decSp.write s.pushAddr (s.decSp.reg r)).setPc (s.pcAfter 2) ∧
      exec (.push (regByte r)) s = .next t := ⟨_, rfl, exec_push_regByte r s⟩
  have hsp : t.sp = s.pushAddr := by rw [ht, State.setPc_sp, State.write_sp, State.decSp_sp]
  have htop : t.read s.pushAddr = s.reg r := by
    rw [ht, State.setPc_read, State.decSp_write_read, if_pos rfl, State.decSp_reg s hr]
  have hreg : ∀ q, q ≠ 7 → t.reg q = s.reg q := fun q hq => by
    rw [ht, State.setPc_reg, State.write_reg, State.decSp_reg s hq]
  have hback : ((t.setReg r' (t.read t.sp)).incSp.setPc (t.pcAfter 2)).sp = s.sp := by
    rw [State.setPc_sp, State.incSp_sp,
      State.spAfterPop_of_sp_eq_pushAddr ((State.setReg_sp t hr' _).trans hsp)]
  refine ⟨t, _, hexec, exec_pop_regByte r' t, ?_, hback, htop, fun q hq => ?_⟩
  · rw [State.setPc_reg, State.incSp_reg _ hr', State.setReg_reg_same, hsp, htop]
  · by_cases h7 : q = 7
    · rw [h7]
      exact hback
    · rw [State.setPc_reg, State.incSp_reg _ h7, State.setReg_reg_other t _ (Ne.symm hq), hreg q h7]

/-- Settles O45: RET reads the return address CALL stored and increments the SP CALL decremented. -/
theorem callThenReturnResumesAfterTheCall : Obligations.CallThenReturnResumesAfterTheCall := by
  intro s a
  refine ⟨_, exec_call_regByte a s, fun u husp hutop => ⟨_, exec_ret u, ?_, ?_⟩⟩
  all_goals rw [State.setPc_sp, State.write_sp, State.decSp_sp] at husp hutop
  · rw [State.setPc_pc, hutop, State.setPc_read, State.decSp_write_read, if_pos rfl, State.pcAfter, offset_toNat]
  · rw [State.setPc_sp, State.incSp_sp, State.spAfterPop_of_sp_eq_pushAddr husp]

/-- Settles O46: the Equal bit CMP leaves is equality of the values, and both branches read it. -/
theorem compareDecidesTheBranch : Obligations.CompareDecidesTheBranch := by
  intro s a b c
  obtain ⟨t, ht, hexec⟩ : ∃ t, t = (s.setFl (compareFlags (s.reg a) (s.reg b))).setPc (s.pcAfter 3) ∧
      exec (.cmp (regByte a) (regByte b)) s = .next t := ⟨_, rfl, exec_cmp_regByte a b s⟩
  have hE : flagE t.fl = decide (s.reg a = s.reg b) := by
    rw [ht, State.setPc_fl, State.setFl_fl, flagE_compareFlags]
  have hreg : t.reg c = s.reg c := by rw [ht, State.setPc_reg, State.setFl_reg]
  have hfall : (t.pcAfter 2).toNat = (s.pc.toNat + 5) % 256 := by
    rw [State.pcAfter, ht, State.setPc_pc, State.pcAfter, offset_offset, offset_toNat]
  refine ⟨t, _, _, hexec, exec_jeq_regByte c t, exec_jne_regByte c t, fun heq => ?_, fun hne => ?_⟩
  · simp [hE, heq, hreg, hfall]
  · simp [hE, hne, hreg, hfall]

/-- The complement plus one is the two's complement (R109). -/
theorem aluAdd_aluNot_one_toNat (x : Byte) : (aluAdd (aluNot x) 0x01).toNat = (256 - x.toNat) % 256 := by
  have hx := x.isLt
  have hone : (0x01 : Byte).toNat = 1 := rfl
  rw [aluAdd_toNat, aluNot_toNat, hone]
  omega

/-- Settles O47: the first two instructions leave the two's complement of x[q] in q, and adding that subtracts. -/
theorem complementAndAddSubtracts : Obligations.ComplementAndAddSubtracts := by
  intro s p q one hpq hone h1
  refine ⟨_, _, _, exec_not_regByte q s, exec_add_regByte q one _, exec_add_regByte p q _, ?_, ?_⟩
  · simp only [State.setPc_reg, State.setReg_reg_same, State.setReg_reg_other _ _ hpq.symm,
      State.setReg_reg_other _ _ hone.symm, h1]
    rw [aluAdd_toNat, aluAdd_aluNot_one_toNat]
    have hq := (s.reg q).isLt
    omega
  · simp only [State.setPc_reg, State.setReg_reg_same, State.setReg_reg_other _ _ hpq,
      State.setReg_reg_other _ _ hone.symm, h1]
    exact aluAdd_aluNot_one_toNat _

/-- Settles O48: the step runs the PUSH it fetched, whose store is the operand byte of the next fetch there and leaves the
opcode byte before it. -/
theorem pushOverItsOperandUsesTheFetchedByte : Obligations.PushOverItsOperandUsesTheFetchedByte := by
  intro s a hrun ha hop hoperand haddr
  have hfetch : s.fetchDecoded = .instr (.push (regByte a)) := by
    rw [State.fetchDecoded, hop, State.pcAfter, offset, hoperand]
    exact decode_opcodeByte .push _ _
  have hreg : s.decSp.reg a = s.reg a := State.decSp_reg s ha
  have hother : s.pushAddr ≠ s.pc := by
    rw [haddr]
    exact offset_ne_self s.pc (n := 1) (by omega) (by omega)
  have hread := State.decSp_write_read s (s.reg a)
  refine ⟨_, (step_of_fetchDecoded_eq_instr hrun hfetch).trans (exec_push_regByte a s), ?_, ?_⟩
  · rw [State.setPc_read, hreg, hread, if_pos rfl]
  · rw [State.fetchDecoded, hreg]
    show decode ((s.decSp.write s.pushAddr (s.reg a)).read s.pc)
      ((s.decSp.write s.pushAddr (s.reg a)).read (u8 (s.pc.toNat + 1))) _ = _
    rw [hread, if_neg hother, hop, hread, if_pos haddr]
    exact decode_opcodeByte .push _ _

/-- Settles O49: both are `u8` of the value on naturals, which a quotient of bytes already fits. -/
theorem aluContractOfSubAndDiv : Obligations.AluContractOfSubAndDiv := by
  refine fun p q => ⟨u8_toNat _, fun hq => if_pos hq, fun hq => ⟨_, if_neg hq, ?_⟩⟩
  rw [u8_toNat, Nat.mod_eq_of_lt (Nat.lt_of_le_of_lt (Nat.div_le_self _ _) p.isLt)]

end Sys2Proof.Machine
